-- ==== Sys2Proof/Word.lean ====
section
/-!
DEFINITION. The Word (10_state.md R15) and the byte of a serialised program (30_encoding.md R58).

A Word is "an unsigned integer in `[0, 2^W - 1]`" (00_scope.md R8), "the sole value type on the stack and the sole operand type"
(R15). `W` is a parameter of the hardware (R6, decision D1), so a Word is a natural number and its bound is an invariant of the
state (Sys2Proof/Safety.lean, `State.Wf`), as R8 writes the pseudocode: arithmetic on unbounded naturals unless a `mod 2^W` is
written, comparisons that never truncate (log entry 20).
-/

namespace Sys2Proof

/-- One byte, as a tool outside the block stores a program (R58). -/
abbrev Byte := BitVec 8

/-- `v` is a Word of `W` bits: it lies in `[0, 2^W - 1]` (R8, R15). -/
abbrev IsWord (W v : Nat) : Prop := v < 2 ^ W

end Sys2Proof
end

