-- ==== Sys2Proof/Config.lean ====
section
/-!
DEFINITION. The implementation parameters of 00_scope.md R6. "The model takes the following parameters as arguments": a State
carries them in a field that no step writes, so every statement about all states holds for every value of them (log entry 1).
-/

namespace Sys2Proof

/-- The parameters the spec leaves open (D1 to D3) or keeps visible (D6); R6. -/
structure Config where
  /-- `W`, the width of a Word in bits (D1). -/
  wordBits : Nat
  /-- `STACK_CAPACITY`, the number of slots of the operand stack (D2). -/
  stackCapacity : Nat
  /-- `PROGRAM_CAPACITY`, the number of entries of the program store (D3). -/
  programCapacity : Nat
  /-- `JMPIF_NOT_TAKEN_KEEPS`, whether a not-taken `JmpIf` leaves its operand on the stack; the spec fixes it true (D6). -/
  jmpIfNotTakenKeeps : Bool
  deriving DecidableEq, Repr

/-- The constraints of R6's table: `W >= 1`, and each capacity between 1 and `2^W - 1`. -/
abbrev Config.wf (c : Config) : Prop :=
  1 ≤ c.wordBits ∧
  1 ≤ c.stackCapacity ∧ c.stackCapacity ≤ 2 ^ c.wordBits - 1 ∧
  1 ≤ c.programCapacity ∧ c.programCapacity ≤ 2 ^ c.wordBits - 1

/-- R6's test configuration, the spec's own choice and not a value of the source. DESIGN CHOICE, log entry 1. -/
def Config.test : Config where
  wordBits := 64
  stackCapacity := 1024
  programCapacity := 1024
  jmpIfNotTakenKeeps := true

/-- `OPC_BITS`, the width of the opcode field, "fixed at 8 by D11" (R6, R46). -/
abbrev opcBits : Nat := 8

end Sys2Proof
end

