-- ==== Sys2Proof/Syntax.lean ====
section
/-!
DEFINITION. The instructions: one constructor for each row of spec/opcode_table.json.
-/

namespace Sys2Proof

/-- An Instruction, "an immutable opcode + single operand pair" (30_encoding.md R45). EVERY opcode carries the operand field,
"whether its opcode uses it or not"; two Instructions that differ only in an unused operand are different pairs (R48). -/
inductive Instr where
  /-- `Push(v)`, R72: push the literal `v`. -/
  | push (v : Nat)
  /-- `Add`, R76; the operand is unused. -/
  | add (operand : Nat)
  /-- `Sub`, R77; the operand is unused. -/
  | sub (operand : Nat)
  /-- `Mul`, R78; the operand is unused. -/
  | mul (operand : Nat)
  /-- `Div`, R79; the operand is unused. -/
  | div (operand : Nat)
  /-- `Dup(n)`, R73: copy slot `n`, counted from the bottom, to the top. -/
  | dup (n : Nat)
  /-- `Eq`, R83; the operand is unused. -/
  | eq (operand : Nat)
  /-- `Jmp(target)`, R86. -/
  | jmp (target : Nat)
  /-- `JmpIf(target)`, R87. -/
  | jmpIf (target : Nat)
  /-- `Halt`, R89; the operand is unused. -/
  | halt (operand : Nat)
  /-- `DumpStack`, R92; the operand is unused. -/
  | dumpStack (operand : Nat)
  /-- `PrintTop`, R93; the operand is unused. -/
  | printTop (operand : Nat)
  deriving DecidableEq, Repr

/-- The operand field of the pair (10_state.md R23). -/
def Instr.operand : Instr → Nat
  | .push v => v
  | .add v => v
  | .sub v => v
  | .mul v => v
  | .div v => v
  | .dup n => n
  | .eq v => v
  | .jmp t => t
  | .jmpIf t => t
  | .halt v => v
  | .dumpStack v => v
  | .printTop v => v

end Sys2Proof
end

