-- ==== Sys2Proof/WellFormed.lean ====
section
/-!
DEFINITION. Which Instructions a machine of width `W` can hold. The one condition is that the operand is a Word: within the
twelve opcodes "there is no reserved operand value" (30_encoding.md R52).
-/

namespace Sys2Proof

/-- The operand is a `W`-bit Word (R45, R52). -/
abbrev Instr.WellFormed (W : Nat) (i : Instr) : Prop := IsWord W i.operand

end Sys2Proof
end

