-- ==== Sys2Proof/Decode.lean ====
section
/-!
DEFINITION. The instruction word (30_encoding.md R46), the opcode map (R50), the decoder and the encoder (R54), and the byte
stream convention of tools outside the block (R58).
-/

namespace Sys2Proof

/-- `Opcode`, "a closed tagged variant" of exactly twelve values (10_state.md R23, 30_encoding.md R45). -/
inductive Opcode where
  | push | add | sub | mul | div | dup | eq | jmp | jmpIf | halt | dumpStack | printTop
  deriving DecidableEq, Repr

/-- The opcode of the pair (R45). -/
def Instr.opcode : Instr → Opcode
  | .push _ => .push
  | .add _ => .add
  | .sub _ => .sub
  | .mul _ => .mul
  | .div _ => .div
  | .dup _ => .dup
  | .eq _ => .eq
  | .jmp _ => .jmp
  | .jmpIf _ => .jmpIf
  | .halt _ => .halt
  | .dumpStack _ => .dumpStack
  | .printTop _ => .printTop

/-- The Instruction `{ opcode, operand }` (R45). -/
def Instr.ofPair (o : Opcode) (v : Nat) : Instr :=
  match o with
  | .push => .push v
  | .add => .add v
  | .sub => .sub v
  | .mul => .mul v
  | .div => .div v
  | .dup => .dup v
  | .eq => .eq v
  | .jmp => .jmp v
  | .jmpIf => .jmpIf v
  | .halt => .halt v
  | .dumpStack => .dumpStack v
  | .printTop => .printTop v

/-- `number_of`: the opcode map of R50 (decision D11). -/
def Opcode.number : Opcode → BitVec opcBits
  | .push => 0x00#8
  | .add => 0x01#8
  | .sub => 0x02#8
  | .mul => 0x03#8
  | .div => 0x04#8
  | .dup => 0x05#8
  | .eq => 0x06#8
  | .jmp => 0x07#8
  | .jmpIf => 0x08#8
  | .halt => 0x09#8
  | .dumpStack => 0x0A#8
  | .printTop => 0x0B#8

/-- `opcode_of` (R50, R54): none for `0x0C .. 0xFF`, which "select no instruction" (R51). -/
def opcodeOf (o : BitVec opcBits) : Option Opcode :=
  match o.toNat with
  | 0x00 => some .push
  | 0x01 => some .add
  | 0x02 => some .sub
  | 0x03 => some .mul
  | 0x04 => some .div
  | 0x05 => some .dup
  | 0x06 => some .eq
  | 0x07 => some .jmp
  | 0x08 => some .jmpIf
  | 0x09 => some .halt
  | 0x0A => some .dumpStack
  | 0x0B => some .printTop
  | _ => none

/-- An instruction word, `OPC_BITS + W` bits (R46). -/
abbrev InstrWord (W : Nat) := BitVec (opcBits + W)

/-- The `opc` field, bits `[W+7 : W]` (R46). -/
def opcField {W : Nat} (w : InstrWord W) : BitVec opcBits := w.extractLsb' W opcBits

/-- The `operand` field, bits `[W-1 : 0]`, used "exactly as stored" (R46, R47). -/
def operandField {W : Nat} (w : InstrWord W) : Nat := (w.extractLsb' 0 W).toNat

/-- Why a word or a byte stream is no instruction. -/
inductive DecodeError where
  /-- The `opc` field is in `0x0C .. 0xFF`: the decoder's verdict `invalid` (R51, R54). -/
  | badOpcode (opc : BitVec opcBits)
  /-- Byte streams only: the stream ends before the opcode byte and the `W/8` operand bytes of R58 are there, of which R58 says
  nothing. DESIGN CHOICE, log entry 28. -/
  | truncated
  /-- Byte streams only, writing and reading: `W` is no multiple of 8, where R58 gives no convention. DESIGN CHOICE, log
  entry 27. -/
  | widthNotBytes
  deriving DecidableEq, Repr

/-- `decode(word)` of R54, total on every `(8+W)`-bit word. -/
def decode (W : Nat) (w : InstrWord W) : Except DecodeError Instr :=
  match opcodeOf (opcField w) with
  | some o => .ok (Instr.ofPair o (operandField w))
  | none => .error (.badOpcode (opcField w))

/-- `{ number_of(opcode), v }`: the word with these two fields (R46, R54). -/
def packWord (W : Nat) (o : BitVec opcBits) (v : Nat) : InstrWord W := o ++ BitVec.ofNat W v

/-- `encode(opcode, v)` of R54. -/
def encode (W : Nat) (i : Instr) : InstrWord W := packWord W i.opcode.number i.operand

/-- The `k` low bytes of `v`, least significant first (R58). -/
def leBytes : Nat → Nat → List Byte
  | 0, _ => []
  | k + 1, v => BitVec.ofNat 8 v :: leBytes k (v / 2 ^ 8)

/-- The number whose bytes, least significant first, are the list (R58). -/
def ofLeBytes : List Byte → Nat
  | [] => 0
  | b :: bs => b.toNat + 2 ^ 8 * ofLeBytes bs

/-- The instruction in a byte stream: "one byte `opc`, then `W/8` bytes of `operand`, least significant byte first" (R58), for
`W` a multiple of 8. For any other `W` R58 gives no convention, and the model refuses by name rather than drop the operand's
top bits: DESIGN CHOICE, log entry 27. -/
def encodeBytes (W : Nat) (i : Instr) : Except DecodeError (List Byte) :=
  if W % 8 = 0 then .ok (i.opcode.number :: leBytes (W / 8) i.operand) else .error .widthNotBytes

/-- Read one instruction off a byte stream (R58); answers the rest of the stream with it. Total on any bytes. For `W` no multiple
of 8 it refuses by name, as `encodeBytes` does: DESIGN CHOICE, log entry 27. R58 says nothing of a stream that ends within an
instruction or is empty; that is refused by name too, before the opcode byte is looked at: DESIGN CHOICE, log entry 28. -/
def decodeBytes (W : Nat) (bytes : List Byte) : Except DecodeError (Instr × List Byte) :=
  if W % 8 = 0 then
    match bytes with
    | [] => .error .truncated
    | o :: rest =>
      if rest.length < W / 8 then .error .truncated
      else
        match decode W (packWord W o (ofLeBytes (rest.take (W / 8)))) with
        | .ok i => .ok (i, rest.drop (W / 8))
        | .error e => .error e
  else .error .widthNotBytes

/-- The instruction word of width `W` whose number is the low `nbits` bits of `w`, the bits above them zero. -/
def wordOfTable (W nbits w : Nat) : InstrWord W := BitVec.ofNat (opcBits + W) (w % 2 ^ nbits)

/-- What the decoder reads from the word that spec/opcode_table.json numbers `w`, with the table's `W = 64` (log entry 19). -/
def decodeTableWord (nbits w : Nat) : Option Instr :=
  match decode Config.test.wordBits (wordOfTable Config.test.wordBits nbits w) with
  | .ok i => some i
  | .error _ => none

end Sys2Proof
end

