-- ==== Sys2Proof/Machine/State.lean ====
section
/-!
DEFINITION. The state of the block (10_state.md R13), the reset state (R30), and the reasons a request can stop.
-/

namespace Sys2Proof.Machine

/-- The trap taxonomy, a "closed set" (10_state.md R25, 60_exceptions.md R108). -/
inductive Trap where
  /-- "the 'no fault' sentinel" -/
  | ok
  /-- a push when `sp == STACK_CAPACITY` -/
  | stackOverflow
  /-- fewer live elements than the instruction needs -/
  | stackUnderflow
  /-- the divisor is 0 -/
  | divideByZero
  /-- a fetch with `ip >= program_size`, or `Dup(n)` with `n >= sp` -/
  | illegalInstructionAccess
  deriving DecidableEq, Repr

/-- An event on the debug port, with a snapshot of the live stack, bottom first (10_state.md R27). -/
inductive Event where
  /-- emitted by `DumpStack` -/
  | dump (snap : List Nat)
  /-- emitted by `PrintTop` -/
  | print (snap : List Nat)
  /-- emitted by trap entry -/
  | trapReport (code : Trap) (snap : List Nat)
  deriving DecidableEq, Repr

/-- The whole mutable state of the block (10_state.md R13), with its parameters. -/
structure State where
  /-- The parameters of R6; written by nothing (log entry 1). -/
  cfg : Config
  /-- The live part of the operand stack, slot 0 (the bottom) first, and nothing else (R17, R18; log entry 4). -/
  stack : List Nat
  /-- The valid entries of the program store, index 0 first (R22; log entry 4). -/
  prog : List Instr
  /-- The instruction pointer, an instruction index (R20). -/
  ip : Nat
  /-- The halt flag (R24). -/
  halted : Bool
  /-- The sticky trap register (R25). -/
  trap : Trap
  /-- The debug event log, oldest event first (R27). -/
  dbg : List Event
  deriving DecidableEq, Repr

/-- `sp`, "the number of elements actually stored": the size and the contents are one thing (R18, R19). -/
def State.sp (s : State) : Nat := s.stack.length

/-- `program_size`, the fill count of the program store (R22). -/
def State.programSize (s : State) : Nat := s.prog.length

/-- The reasons the machine could stop with a fault: NONE. Every trap of the taxonomy is a next state (60_exceptions.md R113),
and R66 gives every other step an effect, so no constructor is needed and none exists. Safe: nothing is cut short (log
entry 21). -/
inductive Fault where
  deriving DecidableEq, Repr

/-- The reasons a request has no meaning. -/
inductive Refusal where
  /-- An instruction without a meaning in this model. Raised by nothing: `exec` gives all twelve their meaning. Safe. -/
  | notModelled (mnemonic : String)
  /-- The host called `append` after the first step request; raised by `Session.act` and by no step. "it is refused, not
  performed and not ignored" (50_interfaces.md R98). Safe: the session stops where the spec gives it no transition. -/
  | appendAfterFirstStep
  deriving DecidableEq, Repr

/-- Reset (10_state.md R30) of a block with the given parameters: `sp = 0`, `program_size = 0`, `ip = 0`, `halted = 0`,
`trap = Ok`, `dbg` empty. -/
def State.resetWith (c : Config) : State where
  cfg := c
  stack := []
  prog := []
  ip := 0
  halted := false
  trap := .ok
  dbg := []

/-- The state right after reset, at R6's test configuration (log entry 1). -/
def State.reset : State := State.resetWith Config.test

end Sys2Proof.Machine
end

