-- ==== Sys2Proof/Machine/Ops.lean ====
section
/-!
DEFINITION. The named operations on the state: the pseudocode primitives of 00_scope.md R9, fetch, and trap entry.
-/

namespace Sys2Proof.Machine

/-- Running: `halted == 0` and `trap == Ok` (00_scope.md R12). -/
def running (s : State) : Bool := !s.halted && decide (s.trap = .ok)

/-- `prog[ip]`, or none when `ip >= program_size`, compared as natural numbers (40_execution_cycle.md R61). -/
def fetch (s : State) : Option Instr := s.prog[s.ip]?

/-- `ip <- t`. -/
def setIp (t : Nat) (s : State) : State := { s with ip := t }

/-- `ip <- ip + 1`; it never wraps, since `ip < program_size` when it happens (10_state.md R21; log entry 20). -/
def advance (s : State) : State := setIp (s.ip + 1) s

/-- The writes of a step to the stack and `sp` (R65 item 7): the live stack becomes `st`. -/
def setStack (st : List Nat) (s : State) : State := { s with stack := st }

/-- `snapshot()`: the live stack, bottom first (R9). -/
def snapshot (s : State) : List Nat := s.stack

/-- `emit E`: append an event to the debug event log (R9, 10_state.md R27). -/
def emit (e : Event) (s : State) : State := { s with dbg := s.dbg ++ [e] }

/-- Trap entry, `raise T` (60_exceptions.md R113): `trap <- T`, one `TrapReport`, "and nothing else". There is no return from
a trap (R116), so no operation undoes it. -/
def trapEntry (T : Trap) (s : State) : State := emit (.trapReport T (snapshot s)) { s with trap := T }

/-- The outcome of a step that raises `T`: a next state, the engine Trapped. -/
def raise (T : Trap) (s : State) : Host.Outcome State Fault Refusal := .next (trapEntry T s)

/-- The program store with its entry `k` made `i`: in place below the end, appended at the end, after copies of `i` beyond it.
Used by `withFetchWord` alone; no instruction and no port writes an entry in place (log entry 23). -/
def placeEntry (k : Nat) (i : Instr) (p : List Instr) : List Instr :=
  if k < p.length then p.set k i else p ++ List.replicate (k - p.length) i ++ [i]

end Sys2Proof.Machine
end

