-- ==== Sys2Proof/Machine/Flags.lean ====
section
/-!
DEFINITION. What the instructions compute: the five result functions of 42_arithmetic.md, the test of `JmpIf` (R84), and the one
flag, `halted` (10_state.md R24). "There are no condition codes" and no instruction writes a flag as a side effect of arithmetic.
-/

namespace Sys2Proof.Machine

/-- `(a + b) mod 2^W` (R76, R80). -/
def addResult (W : Nat) (a b : Nat) : Nat := (a + b) % 2 ^ W

/-- `(a + 2^W - b) mod 2^W`: second popped minus first popped (R77, R80). -/
def subResult (W : Nat) (a b : Nat) : Nat := (a + 2 ^ W - b) % 2 ^ W

/-- `(a * b) mod 2^W`: the low `W` bits of the product (R78, R80). -/
def mulResult (W : Nat) (a b : Nat) : Nat := (a * b) % 2 ^ W

/-- `floor(a / b)`, for `b != 0` (R79, R81). -/
def divResult (a b : Nat) : Nat := a / b

/-- The Word 1 for equal, the Word 0 for not equal (R83, R84). -/
def eqResult (a b : Nat) : Nat := if a = b then 1 else 0

/-- `JmpIf` is taken when its condition "equals 1"; every other Word is not taken (R84, R87). -/
def conditionHolds (a : Nat) : Bool := decide (a = 1)

/-- `halted <- 1` (10_state.md R24). -/
def setHalted (s : State) : State := { s with halted := true }

end Sys2Proof.Machine
end

