-- ==== Sys2Proof/Machine/Operands.lean ====
section
/-!
DEFINITION. Every way an instruction reaches the operand stack (10_state.md R17): the top, the top two, an absolute slot, a push.
-/

namespace Sys2Proof.Machine

/-- The top of the stack taken off: what lies below it, and the top `a` (stack effect `S,a`); none when `sp == 0`. -/
def takeTop (st : List Nat) : Option (List Nat × Nat) :=
  match st.reverse with
  | a :: below => some (below.reverse, a)
  | [] => none

/-- The top two taken off: what lies below, `a = stack[sp-2]` and `b = stack[sp-1]` (stack effect `S,a,b`, 42_arithmetic.md
R75); none when `sp < 2`. -/
def takeTopTwo (st : List Nat) : Option (List Nat × Nat × Nat) :=
  match st.reverse with
  | b :: a :: below => some (below.reverse, a, b)
  | _ => none

/-- `stack[n]`, the slot counted from the bottom, or none when `n >= sp`, compared on all bits of `n` (41_stack_ops.md R73,
R74; 00_scope.md R8). -/
def slot (st : List Nat) (n : Nat) : Option Nat := st[n]?

/-- `push(v)` (00_scope.md R9, 41_stack_ops.md R71) and the advance of `ip` that follows it: `StackOverflow` exactly when
`sp == STACK_CAPACITY`. -/
def pushAdvance (v : Nat) (s : State) : Host.Outcome State Fault Refusal :=
  if s.sp = s.cfg.stackCapacity then raise .stackOverflow s
  else .next (advance (setStack (s.stack ++ [v]) s))

end Sys2Proof.Machine
end

