-- ==== Sys2Proof/Machine/Arithmetic.lean ====
section
/-!
DEFINITION. The arithmetic and comparison instructions Add, Sub, Mul, Div, Eq (42_arithmetic.md).
-/

namespace Sys2Proof.Machine

/-- What the five have in common (R75): underflow first, then the instruction's own check of `b`, then `S,a,b -> S,r` with
`ip <- ip + 1`. `check b` names the trap that the divisor `b` raises, if any. -/
def binary (check : Nat → Option Trap) (result : Nat → Nat → Nat) (s : State) :
    Host.Outcome State Fault Refusal :=
  match takeTopTwo s.stack with
  | none => raise .stackUnderflow s
  | some (below, a, b) =>
    match check b with
    | some T => raise T s
    | none => .next (advance (setStack (below ++ [result a b]) s))

/-- Add, Sub, Mul and Eq have no check after the arity check (60_exceptions.md R110). -/
def noCheck (_ : Nat) : Option Trap := none

/-- Div's divisor check, after the arity check (R79, R114). -/
def divisorCheck (b : Nat) : Option Trap := if b = 0 then some .divideByZero else none

/-- `Add`, R76. -/
def execAdd (s : State) : Host.Outcome State Fault Refusal := binary noCheck (addResult s.cfg.wordBits) s

/-- `Sub`, R77. -/
def execSub (s : State) : Host.Outcome State Fault Refusal := binary noCheck (subResult s.cfg.wordBits) s

/-- `Mul`, R78. -/
def execMul (s : State) : Host.Outcome State Fault Refusal := binary noCheck (mulResult s.cfg.wordBits) s

/-- `Div`, R79. -/
def execDiv (s : State) : Host.Outcome State Fault Refusal := binary divisorCheck divResult s

/-- `Eq`, R83. It "never behaves as `Halt`". -/
def execEq (s : State) : Host.Outcome State Fault Refusal := binary noCheck eqResult s

end Sys2Proof.Machine
end

