-- ==== Sys2Proof/Machine/Control.lean ====
section
/-!
DEFINITION. The control-transfer instructions Jmp, JmpIf, Halt (43_control.md). A jump never checks its target (R85): the check is
the range check of the next step's fetch.
-/

namespace Sys2Proof.Machine

/-- `Jmp(target)`, R86. -/
def execJmp (target : Nat) (s : State) : Host.Outcome State Fault Refusal := .next (setIp target s)

/-- The not-taken `JmpIf` whose condition lay above `below`: the stack is kept as R87 says, or, in the reading of the parameter's
value false (R88, D6), the condition is consumed. Then auto-advance applies (log entry 2). -/
def fallThrough (below : List Nat) (s : State) : Host.Outcome State Fault Refusal :=
  if s.cfg.jmpIfNotTakenKeeps then .next (advance s) else .next (advance (setStack below s))

/-- `JmpIf(target)`, R87: the condition is consumed when the jump is taken. -/
def execJmpIf (target : Nat) (s : State) : Host.Outcome State Fault Refusal :=
  match takeTop s.stack with
  | none => raise .stackUnderflow s
  | some (below, a) =>
    if conditionHolds a then .next (setIp target (setStack below s)) else fallThrough below s

/-- `Halt`, R89: the flag is set and `ip` is incremented, for `Halt` is no jump (decision D15, log entry 12). -/
def execHalt (s : State) : Host.Outcome State Fault Refusal := .next (advance (setHalted s))

end Sys2Proof.Machine
end

