-- ==== Sys2Proof/Machine/Debug.lean ====
section
/-!
DEFINITION. The debug-output instructions DumpStack and PrintTop (44_debug.md).
-/

namespace Sys2Proof.Machine

/-- `DumpStack`, R92. -/
def execDumpStack (s : State) : Host.Outcome State Fault Refusal := .next (advance (emit (.dump (snapshot s)) s))

/-- `PrintTop`, R93: the event carries the stack before the pop (decision D7, log entry 5). -/
def execPrintTop (s : State) : Host.Outcome State Fault Refusal :=
  match takeTop s.stack with
  | none => raise .stackUnderflow s
  | some (below, _) => .next (advance (setStack below (emit (.print (snapshot s)) s)))

end Sys2Proof.Machine
end

