-- ==== Sys2Proof/Machine/Stack.lean ====
section
/-!
DEFINITION. The stack instructions Push and Dup (41_stack_ops.md).
-/

namespace Sys2Proof.Machine

/-- `Push(v)`, R72: `S -> S,v`. -/
def execPush (v : Nat) (s : State) : Host.Outcome State Fault Refusal := pushAdvance v s

/-- `Dup(n)`, R73: `S -> S,S[n]`. Its checks in order: underflow, index, overflow (decision D8, log entry 6). -/
def execDup (n : Nat) (s : State) : Host.Outcome State Fault Refusal :=
  if s.sp = 0 then raise .stackUnderflow s
  else
    match slot s.stack n with
    | none => raise .illegalInstructionAccess s
    | some v => pushAdvance v s

end Sys2Proof.Machine
end

