-- ==== Sys2Proof/Machine/Dispatch.lean ====
section
/-!
DEFINITION. The dispatch of 40_execution_cycle.md R62: "an exhaustive twelve-way case" on the opcode, one arm a rule of R50. The
arms of opcodes that take no operand drop it (30_encoding.md R48).
-/

namespace Sys2Proof.Machine

/-- The effect of the fetched instruction on a Running engine. -/
def exec (i : Instr) (s : State) : Host.Outcome State Fault Refusal :=
  match i with
  | .push v => Sys2Proof.Machine.execPush v s
  | .add _ => Sys2Proof.Machine.execAdd s
  | .sub _ => Sys2Proof.Machine.execSub s
  | .mul _ => Sys2Proof.Machine.execMul s
  | .div _ => Sys2Proof.Machine.execDiv s
  | .dup n => Sys2Proof.Machine.execDup n s
  | .eq _ => Sys2Proof.Machine.execEq s
  | .jmp target => Sys2Proof.Machine.execJmp target s
  | .jmpIf target => Sys2Proof.Machine.execJmpIf target s
  | .halt _ => Sys2Proof.Machine.execHalt s
  | .dumpStack _ => Sys2Proof.Machine.execDumpStack s
  | .printTop _ => Sys2Proof.Machine.execPrintTop s

end Sys2Proof.Machine
end

