-- ==== Sys2Proof/Machine/Step.lean ====
section
/-!
DEFINITION. One step (40_execution_cycle.md R60 to R66), and the host's placing of a word where the next step fetches.
-/

namespace Sys2Proof.Machine

/-- One step request (R66, 50_interfaces.md R99): nothing when terminal (R60), a failed fetch when `ip >= program_size` (R61),
the fetched instruction's effect otherwise. -/
def step (s : State) : Host.Outcome State Fault Refusal :=
  if running s then
    match fetch s with
    | none => raise .illegalInstructionAccess s
    | some i => exec i s
  else .next s

/-- `s` with the instruction of the word `w` stored at `prog[ip]` and the engine Running, so that the next step runs it; a word
that decodes to no instruction is refused and `s` is unchanged, as at the construction port (R51; log entry 23). -/
def State.withFetchWord (s : State) (nbits w : Nat) : State :=
  match decode s.cfg.wordBits (wordOfTable s.cfg.wordBits nbits w) with
  | .ok i => { s with prog := placeEntry s.ip i s.prog, halted := false, trap := .ok }
  | .error _ => s

end Sys2Proof.Machine
end

