-- ==== Sys2Proof/Machine/Pseudocode.lean ====
section
/-!
DEFINITION. The step function of 40_execution_cycle.md R66, transcribed line by line over a stack ARRAY with a size pointer and a
program array with a fill count: the machine as R17, R19 and R22 draw it, dead slots included. The model's own step
(Machine/Step.lean) works on lists of the live elements; that the two agree is an obligation. Nothing of the model calls this file.
-/

namespace Sys2Proof.Machine.Pseudocode

/-- The tuple of 10_state.md R13, the two stores as arrays indexed by any number (only the live part is architectural, R18). -/
structure ArrayState where
  cfg : Config
  stack : Nat → Nat
  sp : Nat
  prog : Nat → Instr
  programSize : Nat
  ip : Nat
  halted : Bool
  trap : Trap
  dbg : List Event

/-- `stack[k] <- v`. -/
def write (stack : Nat → Nat) (k : Nat) (v : Nat) : Nat → Nat := fun j => if j = k then v else stack j

/-- `snapshot()`: `[stack[0], ..., stack[sp-1]]` (00_scope.md R9). -/
def snapshot (x : ArrayState) : List Nat := (List.range x.sp).map x.stack

/-- `raise T: trap <- T; emit TrapReport(T, snapshot())`. -/
def raise (T : Trap) (x : ArrayState) : ArrayState :=
  { x with trap := T, dbg := x.dbg ++ [.trapReport T (snapshot x)] }

/-- The five lines that end Add, Sub, Mul, Div and Eq: `stack[sp-2] <- r; sp <- sp - 1; ip <- ip + 1`. -/
def replaceTopTwo (r : Nat) (x : ArrayState) : ArrayState :=
  { x with stack := write x.stack (x.sp - 2) r, sp := x.sp - 1, ip := x.ip + 1 }

/-- The case of R66 on the opcode of `prog[ip]`. -/
def arm (i : Instr) (x : ArrayState) : ArrayState :=
  let a := x.stack (x.sp - 2)
  let b := x.stack (x.sp - 1)
  let M := 2 ^ x.cfg.wordBits
  let CAP := x.cfg.stackCapacity
  match i with
  | .push v =>
    if x.sp = CAP then raise .stackOverflow x
    else { x with stack := write x.stack x.sp v, sp := x.sp + 1, ip := x.ip + 1 }
  | .add _ => if x.sp < 2 then raise .stackUnderflow x else replaceTopTwo ((a + b) % M) x
  | .sub _ => if x.sp < 2 then raise .stackUnderflow x else replaceTopTwo ((a + M - b) % M) x
  | .mul _ => if x.sp < 2 then raise .stackUnderflow x else replaceTopTwo ((a * b) % M) x
  | .div _ =>
    if x.sp < 2 then raise .stackUnderflow x
    else if b = 0 then raise .divideByZero x
    else replaceTopTwo (a / b) x
  | .dup v =>
    if x.sp = 0 then raise .stackUnderflow x
    else if v ≥ x.sp then raise .illegalInstructionAccess x
    else if x.sp = CAP then raise .stackOverflow x
    else { x with stack := write x.stack x.sp (x.stack v), sp := x.sp + 1, ip := x.ip + 1 }
  | .eq _ => if x.sp < 2 then raise .stackUnderflow x else replaceTopTwo (if a = b then 1 else 0) x
  | .jmp v => { x with ip := v }
  | .jmpIf v =>
    if x.sp = 0 then raise .stackUnderflow x
    else if x.stack (x.sp - 1) = 1 then { x with sp := x.sp - 1, ip := v }
    else { x with ip := x.ip + 1 }
  | .halt _ => { x with halted := true, ip := x.ip + 1 }
  | .dumpStack _ => { x with dbg := x.dbg ++ [.dump (snapshot x)], ip := x.ip + 1 }
  | .printTop _ =>
    if x.sp = 0 then raise .stackUnderflow x
    else { x with dbg := x.dbg ++ [.print (snapshot x)], sp := x.sp - 1, ip := x.ip + 1 }

/-- `step(state)` of R66. -/
def step (x : ArrayState) : ArrayState :=
  if x.halted = true ∨ x.trap ≠ .ok then x
  else if x.ip ≥ x.programSize then raise .illegalInstructionAccess x
  else arm (x.prog x.ip) x

/-- What is architectural of an array state: its live slots and its valid entries (R18, R22). -/
def live (x : ArrayState) : State where
  cfg := x.cfg
  stack := snapshot x
  prog := (List.range x.programSize).map x.prog
  ip := x.ip
  halted := x.halted
  trap := x.trap
  dbg := x.dbg

end Sys2Proof.Machine.Pseudocode
end

