-- ==== Sys2Proof/Machine/Ports.lean ====
section
/-!
DEFINITION. The interfaces of the block other than the step request (50_interfaces.md): reset, the program construction port, the
debug port (the field `dbg`), and read-out.
-/

namespace Sys2Proof.Machine

/-- What `append` returns (R97). None of the two failures is a trap (60_exceptions.md R120). -/
inductive AppendResult where
  | ok
  | programFull
  | badOpcode
  deriving DecidableEq, Repr

/-- `append(inst)` of an abstract Instruction, whose opcode is one of the twelve (R97). -/
def append (i : Instr) (s : State) : AppendResult × State :=
  if s.programSize = s.cfg.programCapacity then (.programFull, s)
  else (.ok, { s with prog := s.prog ++ [i] })

/-- `append` of an instruction word, the low `W+8` bits of `w` (30_encoding.md R57): `BadOpcode` comes before `ProgramFull`
(R97, R51). -/
def appendWord (w : Nat) (s : State) : AppendResult × State :=
  match decode s.cfg.wordBits (BitVec.ofNat (opcBits + s.cfg.wordBits) w) with
  | .error _ => (.badOpcode, s)
  | .ok i => append i s

/-- The reset input: every element at its reset value, the program cleared (R104, R30); the parameters are the block's own. -/
def resetPort (s : State) : State := State.resetWith s.cfg

/-- The numeric codes of the trap register, 3 bits (10_state.md R25, decision D10; log entry 7). -/
def Trap.code : Trap → BitVec 3
  | .ok => 0
  | .stackOverflow => 1
  | .stackUnderflow => 2
  | .divideByZero => 3
  | .illegalInstructionAccess => 4

/-- What the read-out port gives between steps (R105): no dead slot and no program entry. -/
structure ReadOut where
  ip : Nat
  sp : Nat
  halted : Bool
  trapCode : BitVec 3
  programSize : Nat
  liveSlots : List Nat
  deriving DecidableEq, Repr

/-- The read-out of a state (R105). A function of the state: it has no side effect. -/
def readOut (s : State) : ReadOut where
  ip := s.ip
  sp := s.sp
  halted := s.halted
  trapCode := s.trap.code
  programSize := s.programSize
  liveSlots := s.stack

end Sys2Proof.Machine
end

