-- ==== Sys2Proof/Machine/Session.lean ====
section
/-!
DEFINITION. The host at the block's interfaces: what it may do and in which order (50_interfaces.md R98, R106), and runs of many
steps, with and without a step budget (40_execution_cycle.md R69).
-/

namespace Sys2Proof.Machine

/-- Where the host is in `reset · append* · step*` (R98). The phase is the host's: the block "keeps no 'started' bit". -/
inductive Phase where
  | loading
  | stepping
  deriving DecidableEq, Repr

/-- What a host may do at a step boundary (R106). -/
inductive HostAction where
  | reset
  | append (i : Instr)
  | appendWord (w : Nat)
  | stepRequest
  | readOut
  deriving DecidableEq, Repr

/-- A host and its block. -/
structure Session where
  phase : Phase
  block : State
  deriving DecidableEq, Repr

/-- After the host's first reset of a block with parameters `c` (70_reset_and_hazards.md R131). -/
def Session.start (c : Config) : Session := ⟨.loading, State.resetWith c⟩

/-- The port's payload is an Instruction whose operand is a Word (R57); every other action is always well formed. -/
def HostAction.WellFormed (W : Nat) : HostAction → Prop
  | .append i => i.WellFormed W
  | .reset => True
  | .appendWord _ => True
  | .stepRequest => True
  | .readOut => True

/-- One action of the host. An append after the first step request has no transition: "it is refused, not performed and not
ignored" (R98, decision D17; log entry 14). -/
def Session.act (a : HostAction) (x : Session) : Host.Outcome Session Fault Refusal :=
  match a, x.phase with
  | .reset, _ => .next ⟨.loading, resetPort x.block⟩
  | .append i, .loading => .next ⟨.loading, (append i x.block).2⟩
  | .appendWord w, .loading => .next ⟨.loading, (appendWord w x.block).2⟩
  | .append _, .stepping => .refused .appendAfterFirstStep
  | .appendWord _, .stepping => .refused .appendAfterFirstStep
  | .readOut, _ => .next x
  | .stepRequest, _ =>
    match step x.block with
    | .next t => .next ⟨.stepping, t⟩
    | .fault r => .fault r
    | .refused r => .refused r

/-- A sequence of the host's actions, up to the first that is refused. -/
def Session.actAll : List HostAction → Session → Host.Outcome Session Fault Refusal
  | [], x => .next x
  | a :: rest, x =>
    match Session.act a x with
    | .next y => Session.actAll rest y
    | .fault r => .fault r
    | .refused r => .refused r

/-- The state one step leaves; the state itself if the step stopped, which no step does (the obligation `EveryStepAnswersNext`). -/
def stepState (s : State) : State :=
  match step s with
  | .next t => t
  | .fault _ => s
  | .refused _ => s

/-- The state after `n` step requests. -/
def runSteps : Nat → State → State
  | 0, s => s
  | n + 1, s => runSteps n (stepState s)

/-- A host with budget `n` (R69, R100): it requests a step while the engine is Running and the budget is not spent, and stopping
leaves no mark in the block. -/
def budgetRun : Nat → State → State
  | 0, s => s
  | n + 1, s => if running s then budgetRun n (stepState s) else s

end Sys2Proof.Machine
end

