-- ==== Sys2Proof/Safety.lean ====
section
/-!
DEFINITION. The terms claims are stated in: the conditions of an engine (00_scope.md R12), how a run ended (R67, R138), the
invariants of 10_state.md R29, and the trap tables of 60_exceptions.md.
-/

namespace Sys2Proof.Machine

/-- Halted: `halted == 1` (R12). -/
abbrev State.Halted (s : State) : Prop := s.halted = true

/-- Trapped: `trap != Ok` (R12). -/
abbrev State.Trapped (s : State) : Prop := s.trap ≠ .ok

/-- Running: `halted == 0` and `trap == Ok` (R12). -/
abbrev State.Running (s : State) : Prop := s.halted = false ∧ s.trap = .ok

/-- Terminal: Halted or Trapped (R12). -/
abbrev State.Terminal (s : State) : Prop := s.Halted ∨ s.Trapped

/-- A safe end: success, `halted == 1` and no trap (R67, R138). -/
abbrev State.Succeeded (s : State) : Prop := s.Halted ∧ s.trap = .ok

/-- The list is a stack the machine can hold: at most `STACK_CAPACITY` slots, each a Word (R17, R19). -/
abbrev StackFits (c : Config) (st : List Nat) : Prop :=
  st.length ≤ c.stackCapacity ∧ ∀ v ∈ st, IsWord c.wordBits v

/-- The snapshot of an event (R27). -/
def Event.snap : Event → List Nat
  | .dump snap => snap
  | .print snap => snap
  | .trapReport _ snap => snap

/-- The event is a trap report. -/
def Event.isReport : Event → Bool
  | .dump _ => false
  | .print _ => false
  | .trapReport _ _ => true

/-- The invariants (a), (b), (c) and (f) of R29, with every value that R8 and R27 call a Word a Word. -/
structure State.Wf (s : State) : Prop where
  /-- The parameters meet R6's constraints. -/
  cfg : s.cfg.wf
  /-- R29 (a), and every live slot is a Word. -/
  stack : StackFits s.cfg s.stack
  /-- R29 (b). -/
  progSize : s.programSize ≤ s.cfg.programCapacity
  /-- Every entry's operand is a Word (R45). -/
  prog : ∀ i ∈ s.prog, i.WellFormed s.cfg.wordBits
  /-- R29 (f). -/
  ip : IsWord s.cfg.wordBits s.ip
  /-- R29 (c). -/
  exclusive : ¬ (s.Halted ∧ s.Trapped)
  /-- Every snapshot was a live stack (R27). -/
  dbg : ∀ e ∈ s.dbg, StackFits s.cfg e.snap

/-- The trap register and the event log agree (R113, R117): no report before the trap; after it exactly one report, the last
event, with the trap's code and the stack as it stands. -/
def State.ReportsAgree (s : State) : Prop :=
  (s.trap = .ok → ∀ e ∈ s.dbg, e.isReport = false) ∧
  (s.Trapped → ∃ earlier, s.dbg = earlier ++ [.trapReport s.trap s.stack] ∧ ∀ e ∈ earlier, e.isReport = false)

/-- How many live elements an instruction needs (60_exceptions.md R109). -/
def arity : Instr → Nat
  | .push _ => 0
  | .add _ => 2
  | .sub _ => 2
  | .mul _ => 2
  | .div _ => 2
  | .dup _ => 1
  | .eq _ => 2
  | .jmp _ => 0
  | .jmpIf _ => 1
  | .halt _ => 0
  | .dumpStack _ => 0
  | .printTop _ => 1

/-- The value check of an instruction whose arity check passed (R114 item 3): the divisor of `Div`, the index of `Dup`. -/
def valueFailure (i : Instr) (s : State) : Option Trap :=
  match i with
  | .push _ => none
  | .add _ => none
  | .sub _ => none
  | .mul _ => none
  | .div _ => if s.stack[s.sp - 1]? = some 0 then some .divideByZero else none
  | .dup n => if s.sp ≤ n then some .illegalInstructionAccess else none
  | .eq _ => none
  | .jmp _ => none
  | .jmpIf _ => none
  | .halt _ => none
  | .dumpStack _ => none
  | .printTop _ => none

/-- The instruction ends in a push (R114 item 4, R109). -/
def pushes : Instr → Bool
  | .push _ => true
  | .add _ => false
  | .sub _ => false
  | .mul _ => false
  | .div _ => false
  | .dup _ => true
  | .eq _ => false
  | .jmp _ => false
  | .jmpIf _ => false
  | .halt _ => false
  | .dumpStack _ => false
  | .printTop _ => false

/-- The first failing check of an instruction in the order of R114: arity, value, capacity. -/
def firstFailure (i : Instr) (s : State) : Option Trap :=
  if s.sp < arity i then some .stackUnderflow
  else
    match valueFailure i s with
    | some T => some T
    | none => if pushes i ∧ s.sp = s.cfg.stackCapacity then some .stackOverflow else none

/-- The traps an instruction's step can end in, apart from the failed fetch, in priority order (R110). -/
def trapsOf : Instr → List Trap
  | .push _ => [.stackOverflow]
  | .add _ => [.stackUnderflow]
  | .sub _ => [.stackUnderflow]
  | .mul _ => [.stackUnderflow]
  | .eq _ => [.stackUnderflow]
  | .div _ => [.stackUnderflow, .divideByZero]
  | .dup _ => [.stackUnderflow, .illegalInstructionAccess, .stackOverflow]
  | .jmp _ => []
  | .halt _ => []
  | .dumpStack _ => []
  | .jmpIf _ => [.stackUnderflow]
  | .printTop _ => [.stackUnderflow]

/-- The opcode takes no operand (30_encoding.md R47). -/
def operandUnused : Instr → Bool
  | .push _ => false
  | .add _ => true
  | .sub _ => true
  | .mul _ => true
  | .div _ => true
  | .dup _ => false
  | .eq _ => true
  | .jmp _ => false
  | .jmpIf _ => false
  | .halt _ => true
  | .dumpStack _ => true
  | .printTop _ => true

/-- The Instruction with an unused operand field made zero, "conventionally zero" (R48). -/
def canonical (i : Instr) : Instr := if operandUnused i then Instr.ofPair i.opcode 0 else i

/-- The state R113 gives after `raise T`: the cause in `trap`, one `TrapReport` with the live stack, nothing else. -/
def afterTrap (T : Trap) (s : State) : State :=
  { s with trap := T, dbg := s.dbg ++ [.trapReport T s.stack] }

/-- The top of the stack holds exactly 1, the condition on which `JmpIf` jumps (R84, R87). -/
abbrev topIsOne (s : State) : Prop := s.stack[s.sp - 1]? = some 1

/-- The `ip` after an instruction that completes with `Ok` (40_execution_cycle.md R63). -/
def ipAfter (i : Instr) (s : State) : Nat :=
  match i with
  | .push _ => s.ip + 1
  | .add _ => s.ip + 1
  | .sub _ => s.ip + 1
  | .mul _ => s.ip + 1
  | .div _ => s.ip + 1
  | .dup _ => s.ip + 1
  | .eq _ => s.ip + 1
  | .jmp target => target
  | .jmpIf target => if topIsOne s then target else s.ip + 1
  | .halt _ => s.ip + 1
  | .dumpStack _ => s.ip + 1
  | .printTop _ => s.ip + 1

/-- How many pushes and how many pops an instruction that completes with `Ok` makes (00_scope.md R9, 10_state.md R19): a binary
instruction pops two and pushes one; `JmpIf` pops exactly when it jumps (R87), or always in the reading of R88 with
`JMPIF_NOT_TAKEN_KEEPS` false (log entry 2). -/
def pushesPops (i : Instr) (s : State) : Nat × Nat :=
  match i with
  | .push _ => (1, 0)
  | .add _ => (1, 2)
  | .sub _ => (1, 2)
  | .mul _ => (1, 2)
  | .div _ => (1, 2)
  | .dup _ => (1, 0)
  | .eq _ => (1, 2)
  | .jmp _ => (0, 0)
  | .jmpIf _ => if topIsOne s ∨ s.cfg.jmpIfNotTakenKeeps = false then (0, 1) else (0, 0)
  | .halt _ => (0, 0)
  | .dumpStack _ => (0, 0)
  | .printTop _ => (0, 1)

/-- How many elements the step at `s` takes off the stack before it pushes any: the pops of the instruction it completes, and
none where no instruction completes (terminal, failed fetch, trap). A step pops the stack down to `s.sp - popsOfStep s`. -/
def popsOfStep (s : State) : Nat :=
  if running s then
    match fetch s with
    | none => 0
    | some i => if firstFailure i s = none then (pushesPops i s).2 else 0
  else 0

end Sys2Proof.Machine
end

