-- ==== Sys2Proof/Certificates/Slice0/Obligations.lean ====
section
/-!
DEFINITION. The statements for the provers. Each docstring names the rule of spec/ it formalises. Where a rule's text carries the
spec's own mark [decision: D<n>] or [derived: ...], the docstring says so, names the log entry, and the statement's basis is
'derived'. `afterTrap T s` is the state of R113 after `raise T` in the state `s`.
-/

open Sys2Proof Sys2Proof.Machine

/-! ## Encoding -/

/-- The decoder and the encoder of 30_encoding.md §7 are inverse for every width and every instruction; the decoder is total and
answers `invalid` exactly above `0x0B`. (The spec marks the round trip as derived, and the layout is its decision D11: log entry 8.) -/
def Obligations.DecodeEncodeInverse : Prop :=
  ∀ W : Nat,
    (∀ i : Instr, i.WellFormed W → decode W (encode W i) = .ok i) ∧
    (∀ w : InstrWord W, (opcField w).toNat ≤ 0x0B →
      ∃ i : Instr, decode W w = .ok i ∧ i.WellFormed W ∧ i.opcode.number = opcField w ∧ i.operand = operandField w ∧
        encode W i = w) ∧
    (∀ w : InstrWord W, 0x0B < (opcField w).toNat → decode W w = .error (.badOpcode (opcField w)))

/-- The word is `{ opc, operand }`, the opcode number in the bits above the `W` bits of the operand (30_encoding.md §2, decision
D11, log entry 8). -/
def Obligations.EncodedWordLayout : Prop :=
  ∀ (W : Nat) (i : Instr), i.WellFormed W → (encode W i).toNat = i.opcode.number.toNat * 2 ^ W + i.operand

/-- The twelve rows of the opcode map (30_encoding.md §4, decision D11, log entry 8), read off the encoded word. -/
def Obligations.OpcodeMapRows : Prop :=
  ∀ (W : Nat) (v : Nat),
    opcField (encode W (.push v)) = 0x00#8 ∧ opcField (encode W (.add v)) = 0x01#8 ∧
    opcField (encode W (.sub v)) = 0x02#8 ∧ opcField (encode W (.mul v)) = 0x03#8 ∧
    opcField (encode W (.div v)) = 0x04#8 ∧ opcField (encode W (.dup v)) = 0x05#8 ∧
    opcField (encode W (.eq v)) = 0x06#8 ∧ opcField (encode W (.jmp v)) = 0x07#8 ∧
    opcField (encode W (.jmpIf v)) = 0x08#8 ∧ opcField (encode W (.halt v)) = 0x09#8 ∧
    opcField (encode W (.dumpStack v)) = 0x0A#8 ∧ opcField (encode W (.printTop v)) = 0x0B#8

/-- R49: the instruction is selected by the `opc` field alone: `w` decodes to the opcode `o` exactly when `w` under the mask
`0xFF << W` is `opc << W`. -/
def Obligations.MaskAndMatchSelect : Prop :=
  ∀ (W : Nat) (w : InstrWord W) (o : Opcode),
    (∃ v : Nat, decode W w = .ok (Instr.ofPair o v)) ↔
      w &&& (BitVec.ofNat (opcBits + W) 0xFF <<< W) = BitVec.ofNat (opcBits + W) o.number.toNat <<< W

/-- A few words of 95_test_vectors.md V-ENC, at `W = 64`, decode to the instructions they stand for, and two are `invalid`. -/
def Obligations.SpecWordsDecode : Prop :=
  decodeTableWord 72 0x000000000000000045 = some (.push 69) ∧
  decodeTableWord 72 0x010000000000000005 = some (.add 5) ∧
  decodeTableWord 72 0x050000000000000005 = some (.dup 5) ∧
  decodeTableWord 72 0x080000000000000009 = some (.jmpIf 9) ∧
  decodeTableWord 72 0x0B0000000000000000 = some (.printTop 0) ∧
  decodeTableWord 72 0x00FFFFFFFFFFFFFFFF = some (.push (2 ^ 64 - 1)) ∧
  decodeTableWord 72 0x0C0000000000000000 = none ∧
  decodeTableWord 72 0xFF0000000000000000 = none

/-- The byte stream of tools outside the block (30_encoding.md §9, decision D13, log entry 10): for `W` a multiple of 8, one
instruction is `1 + W/8` bytes, the opcode first, then byte `k` of the operand at position `k + 1`, so the least significant
first, and reading it back gives it and the rest of the stream. For any other `W` §9 gives no convention, and writing and
reading both refuse by name: that clause is the model's choice, log entry 27. -/
def Obligations.ByteStreamRoundTrip : Prop :=
  (∀ (W : Nat) (i : Instr) (rest : List Byte), W % 8 = 0 → i.WellFormed W →
    ∃ bytes : List Byte, encodeBytes W i = .ok bytes ∧ bytes.length = 1 + W / 8 ∧ bytes[0]? = some i.opcode.number ∧
      (∀ k, k < W / 8 → bytes[k + 1]? = some (BitVec.ofNat 8 (i.operand / 2 ^ (8 * k)))) ∧
      decodeBytes W (bytes ++ rest) = .ok (i, rest)) ∧
  encodeBytes 64 (.push 69) = .ok [0x00, 0x45, 0x00, 0x00, 0x00, 0x00, 0x00, 0x00, 0x00] ∧
  (∀ W : Nat, W % 8 ≠ 0 →
    (∀ i : Instr, encodeBytes W i = .error .widthNotBytes) ∧ ∀ bytes : List Byte, decodeBytes W bytes = .error .widthNotBytes)

/-! ## The twelve instructions: where each completes, with what result, and where it traps -/

/-- R72: `Push(v)` pushes its operand, whatever Word it is, unless the stack is full. -/
def Obligations.PushResult : Prop :=
  ∀ (s : State) (v : Nat),
    (Instr.push v).opcode.number = 0x00#8 ∧
    (s.sp ≠ s.cfg.stackCapacity → exec (.push v) s = .next { s with stack := s.stack ++ [v], ip := s.ip + 1 }) ∧
    (s.sp = s.cfg.stackCapacity → exec (.push v) s = .next (afterTrap .stackOverflow s))

/-- 41_stack_ops.md §3: `Dup(n)` copies slot `n`, counted from the bottom, to the top; its traps in priority order (the order of
the last two checks is the spec's decision D8, log entry 6). -/
def Obligations.DupResult : Prop :=
  ∀ (s : State) (n : Nat),
    (∀ w : Nat, s.stack[n]? = some w → s.sp ≠ s.cfg.stackCapacity →
      exec (.dup n) s = .next { s with stack := s.stack ++ [w], ip := s.ip + 1 }) ∧
    (s.sp = 0 → exec (.dup n) s = .next (afterTrap .stackUnderflow s)) ∧
    (0 < s.sp → s.sp ≤ n → exec (.dup n) s = .next (afterTrap .illegalInstructionAccess s)) ∧
    (n < s.sp → s.sp = s.cfg.stackCapacity → exec (.dup n) s = .next (afterTrap .stackOverflow s))

/-- R76: `Add` replaces the top two by `(a + b) mod 2^W`; below two elements it underflows. -/
def Obligations.AddResult : Prop :=
  ∀ (s : State) (u : Nat),
    (Instr.add u).opcode.number = 0x01#8 ∧
    (∀ (below : List Nat) (a b : Nat), s.stack = below ++ [a, b] →
      exec (.add u) s =
        .next { s with stack := below ++ [(a + b) % 2 ^ s.cfg.wordBits], ip := s.ip + 1 }) ∧
    (s.sp < 2 → exec (.add u) s = .next (afterTrap .stackUnderflow s))

/-- R77: `Sub` subtracts the top from the element below it, modulo `2^W`. -/
def Obligations.SubResult : Prop :=
  ∀ (s : State) (u : Nat),
    (Instr.sub u).opcode.number = 0x02#8 ∧
    (∀ (below : List Nat) (a b : Nat), s.stack = below ++ [a, b] →
      exec (.sub u) s =
        .next { s with stack := below ++ [(a + 2 ^ s.cfg.wordBits - b) % 2 ^ s.cfg.wordBits], ip := s.ip + 1 }) ∧
    (s.sp < 2 → exec (.sub u) s = .next (afterTrap .stackUnderflow s))

/-- R78: `Mul` delivers the low `W` bits of the product. -/
def Obligations.MulResult : Prop :=
  ∀ (s : State) (u : Nat),
    (Instr.mul u).opcode.number = 0x03#8 ∧
    (∀ (below : List Nat) (a b : Nat), s.stack = below ++ [a, b] →
      exec (.mul u) s =
        .next { s with stack := below ++ [(a * b) % 2 ^ s.cfg.wordBits], ip := s.ip + 1 }) ∧
    (s.sp < 2 → exec (.mul u) s = .next (afterTrap .stackUnderflow s))

/-- R79: `Div` divides the element below the top by the top; underflow comes first, then the zero divisor, and a trap consumes
nothing. -/
def Obligations.DivResult : Prop :=
  ∀ (s : State) (u : Nat),
    (Instr.div u).opcode.number = 0x04#8 ∧
    (∀ (below : List Nat) (a b : Nat), s.stack = below ++ [a, b] → b ≠ 0 →
      exec (.div u) s = .next { s with stack := below ++ [a / b], ip := s.ip + 1 }) ∧
    (s.sp < 2 → exec (.div u) s = .next (afterTrap .stackUnderflow s)) ∧
    (∀ (below : List Nat) (a : Nat), s.stack = below ++ [a, 0] →
      exec (.div u) s = .next (afterTrap .divideByZero s))

/-- R83: `Eq` pops two and pushes the Word 1 or the Word 0. -/
def Obligations.EqResult : Prop :=
  ∀ (s : State) (u : Nat),
    (Instr.eq u).opcode.number = 0x06#8 ∧
    (∀ (below : List Nat) (a b : Nat), s.stack = below ++ [a, b] →
      exec (.eq u) s = .next { s with stack := below ++ [if a = b then 1 else 0], ip := s.ip + 1 }) ∧
    (s.sp < 2 → exec (.eq u) s = .next (afterTrap .stackUnderflow s))

/-- R86: `Jmp(target)` loads its operand into `ip` and does nothing else; a target at or beyond `program_size` succeeds now and
makes the next step a failed fetch. -/
def Obligations.JmpResult : Prop :=
  ∀ (s : State) (target : Nat),
    (Instr.jmp target).opcode.number = 0x07#8 ∧
    exec (.jmp target) s = .next { s with ip := target } ∧
    (s.Running → s.prog[s.ip]? = some (.jmp target) → s.programSize ≤ target →
      step s = .next { s with ip := target } ∧
      step { s with ip := target } = .next (afterTrap .illegalInstructionAccess { s with ip := target }))

/-- 43_control.md §3: `JmpIf(target)` jumps and consumes its condition exactly when the top of the stack is 1; not taken, it
leaves the stack and advances (the spec's decision D6, log entry 2). -/
def Obligations.JmpIfResult : Prop :=
  ∀ (s : State) (target : Nat), s.cfg.jmpIfNotTakenKeeps = true →
    (∀ below : List Nat, s.stack = below ++ [1] →
      exec (.jmpIf target) s = .next { s with stack := below, ip := target }) ∧
    (∀ (below : List Nat) (a : Nat), s.stack = below ++ [a] → a ≠ 1 →
      exec (.jmpIf target) s = .next { s with ip := s.ip + 1 }) ∧
    (s.sp = 0 → exec (.jmpIf target) s = .next (afterTrap .stackUnderflow s))

/-- 43_control.md §3, the reading the spec does not take (`JMPIF_NOT_TAKEN_KEEPS = false`, D6, log entry 2): the condition is
consumed in both cases. -/
def Obligations.JmpIfConsumingReading : Prop :=
  ∀ (s : State) (target : Nat) (below : List Nat) (a : Nat),
    s.cfg.jmpIfNotTakenKeeps = false → s.stack = below ++ [a] →
      exec (.jmpIf target) s = .next { s with stack := below, ip := if a = 1 then target else s.ip + 1 }

/-- 43_control.md §4: `Halt` sets the flag and increments `ip` (the increment is the spec's decision D15, log entry 12). -/
def Obligations.HaltResult : Prop :=
  ∀ (s : State) (u : Nat),
    exec (.halt u) s = .next { s with halted := true, ip := s.ip + 1 } ∧
    (s.Running → s.prog[s.ip]? = some (.halt u) →
      ∃ t : State, step s = .next t ∧ t.Succeeded ∧ t.ip = s.ip + 1 ∧ ∀ n, runSteps n t = t)

/-- R92: `DumpStack` emits one `Dump` event with the live stack, also an empty one, and changes nothing else but `ip`; two in a
row emit two equal events. -/
def Obligations.DumpStackResult : Prop :=
  ∀ (s : State) (u v : Nat),
    (Instr.dumpStack u).opcode.number = 0x0A#8 ∧
    exec (.dumpStack u) s = .next { s with dbg := s.dbg ++ [.dump s.stack], ip := s.ip + 1 } ∧
    ∃ t : State, exec (.dumpStack u) s = .next t ∧
      exec (.dumpStack v) t = .next { s with dbg := s.dbg ++ [.dump s.stack, .dump s.stack], ip := s.ip + 2 }

/-- 44_debug.md §3: `PrintTop` emits the whole live stack as it stood before the pop, and pops (the spec's decision D7, log
entry 5). -/
def Obligations.PrintTopResult : Prop :=
  ∀ (s : State) (u : Nat),
    (∀ (below : List Nat) (a : Nat), s.stack = below ++ [a] →
      exec (.printTop u) s =
        .next { s with dbg := s.dbg ++ [.print (below ++ [a])], stack := below, ip := s.ip + 1 }) ∧
    (s.sp = 0 → exec (.printTop u) s = .next (afterTrap .stackUnderflow s))

/-! ## Arithmetic laws -/

/-- 42_arithmetic.md §6: `Add`, `Sub` and `Mul` compute the exact integer result and deliver it modulo `2^W`, always a Word, with
no trap; where the exact result fits it is delivered as it is (the wrap is the spec's decision D4, log entry 3). -/
def Obligations.ArithmeticModuloWord : Prop :=
  ∀ (s : State) (u : Nat) (below : List Nat) (a b : Nat), s.stack = below ++ [a, b] →
    IsWord s.cfg.wordBits a → IsWord s.cfg.wordBits b →
      (∃ r : Nat, exec (.add u) s = .next { s with stack := below ++ [r], ip := s.ip + 1 } ∧
        IsWord s.cfg.wordBits r ∧ (r : Int) = ((a : Int) + b) % 2 ^ s.cfg.wordBits ∧
        (a + b < 2 ^ s.cfg.wordBits → r = a + b)) ∧
      (∃ r : Nat, exec (.sub u) s = .next { s with stack := below ++ [r], ip := s.ip + 1 } ∧
        IsWord s.cfg.wordBits r ∧ (r : Int) = ((a : Int) - b) % 2 ^ s.cfg.wordBits ∧
        (b ≤ a → r = a - b)) ∧
      (∃ r : Nat, exec (.mul u) s = .next { s with stack := below ++ [r], ip := s.ip + 1 } ∧
        IsWord s.cfg.wordBits r ∧ (r : Int) = ((a : Int) * b) % 2 ^ s.cfg.wordBits ∧
        (a * b < 2 ^ s.cfg.wordBits → r = a * b))

/-- R81: the quotient is the unique `q` with `q*b <= a < (q+1)*b`, for `b != 0`, and it is a Word when `a` is; division by zero
is the trap and writes nothing. -/
def Obligations.DivisionIsFloor : Prop :=
  ∀ (s : State) (u : Nat) (below : List Nat) (a b : Nat), s.stack = below ++ [a, b] →
    (b ≠ 0 → ∃ q : Nat, exec (.div u) s = .next { s with stack := below ++ [q], ip := s.ip + 1 } ∧
      q * b ≤ a ∧ a < (q + 1) * b ∧ (∀ q' : Nat, q' * b ≤ a → a < (q' + 1) * b → q' = q) ∧
      (IsWord s.cfg.wordBits a → IsWord s.cfg.wordBits q)) ∧
    (b = 0 → exec (.div u) s = .next (afterTrap .divideByZero s))

/-- The wrap-around corner cases that 42_arithmetic.md §2 to §4 list, for every width (they rest on decision D4, log entry 3). -/
def Obligations.WrapCorners : Prop :=
  ∀ (s : State) (u : Nat) (below : List Nat), 1 ≤ s.cfg.wordBits →
    (s.stack = below ++ [2 ^ s.cfg.wordBits - 1, 1] →
      exec (.add u) s = .next { s with stack := below ++ [0], ip := s.ip + 1 }) ∧
    (s.stack = below ++ [0, 1] →
      exec (.sub u) s = .next { s with stack := below ++ [2 ^ s.cfg.wordBits - 1], ip := s.ip + 1 }) ∧
    (s.stack = below ++ [2 ^ s.cfg.wordBits - 1, 2 ^ s.cfg.wordBits - 1] →
      exec (.mul u) s = .next { s with stack := below ++ [1], ip := s.ip + 1 }) ∧
    (∀ x : Nat, IsWord s.cfg.wordBits x → s.stack = below ++ [x, x] →
      exec (.sub u) s = .next { s with stack := below ++ [0], ip := s.ip + 1 })

/-! ## Frames: what instructions leave as it was -/

/-- No instruction writes the program store or the parameters, in any number of steps (20_memory.md §9, 10_state.md §6). -/
def Obligations.ProgramNeverWritten : Prop :=
  (∀ (i : Instr) (s t : State), exec i s = .next t → t.prog = s.prog ∧ t.cfg = s.cfg) ∧
  (∀ (n : Nat) (s : State), (runSteps n s).prog = s.prog ∧ (runSteps n s).cfg = s.cfg)

/-- R71, the frame of `Push` and `Dup`: they trap, or they append one Word on top and advance `ip`, and every other element,
every lower slot, the flag, the trap register and the event log are as before. A full stack never takes the push. -/
def Obligations.FrameOfPushAndDup : Prop :=
  ∀ (i : Instr) (s t : State), (∃ v : Nat, i = .push v ∨ i = .dup v) → exec i s = .next t →
    (∃ T : Trap, T ≠ .ok ∧ t = afterTrap T s) ∨
    (s.sp ≠ s.cfg.stackCapacity ∧ t.sp = s.sp + 1 ∧ (∀ n, n < s.sp → t.stack[n]? = s.stack[n]?) ∧ t.ip = s.ip + 1 ∧
      t.halted = s.halted ∧ t.trap = s.trap ∧ t.dbg = s.dbg ∧ t.prog = s.prog ∧ t.cfg = s.cfg)

/-- R75, what the five binary instructions have in common: underflow first, whatever the one value is; a trap consumes nothing
and is never `StackOverflow`; on success `sp` decreases by 1, the slots below `sp-2`, the flag, the trap register and the event
log are untouched, `ip` advances; the operand field is not used. -/
def Obligations.FrameOfBinary : Prop :=
  ∀ (i : Instr) (s : State), (∃ u : Nat, i = .add u ∨ i = .sub u ∨ i = .mul u ∨ i = .div u ∨ i = .eq u) →
    exec i s = exec (canonical i) s ∧
    (s.sp < 2 → exec i s = .next (afterTrap .stackUnderflow s)) ∧
    (∀ t : State, 2 ≤ s.sp → exec i s = .next t →
      (i.opcode = .div ∧ s.stack[s.sp - 1]? = some 0 ∧ t = afterTrap .divideByZero s) ∨
      (t.sp + 1 = s.sp ∧ (∀ n, n < s.sp - 2 → t.stack[n]? = s.stack[n]?) ∧ t.ip = s.ip + 1 ∧
        t.halted = s.halted ∧ t.trap = s.trap ∧ t.dbg = s.dbg ∧ t.prog = s.prog ∧ t.cfg = s.cfg))

/-- The frame of `Jmp`, `JmpIf` and `Halt` (43_control.md §2 to §4): only `JmpIf` touches the stack, and then only by taking the
top off; only `Halt` writes the flag; no event, no trap but `JmpIf`'s underflow. -/
def Obligations.FrameOfControl : Prop :=
  ∀ (i : Instr) (s t : State), (∃ u : Nat, i = .jmp u ∨ i = .jmpIf u ∨ i = .halt u) → exec i s = .next t →
    (i.opcode = .jmpIf ∧ s.sp = 0 ∧ t = afterTrap .stackUnderflow s) ∨
    ((t.stack = s.stack ∨ (i.opcode = .jmpIf ∧ ∃ a : Nat, s.stack = t.stack ++ [a])) ∧
      (i.opcode ≠ .halt → t.halted = s.halted) ∧
      t.trap = s.trap ∧ t.dbg = s.dbg ∧ t.prog = s.prog ∧ t.cfg = s.cfg)

/-- The frame of `DumpStack` and `PrintTop` (44_debug.md §1 to §3): one event with the live stack as it stood, `ip` advanced; only
`PrintTop` touches the stack, and then only by taking the top off (decision D7, log entry 5). -/
def Obligations.FrameOfDebug : Prop :=
  ∀ (i : Instr) (s t : State), (∃ u : Nat, i = .dumpStack u ∨ i = .printTop u) → exec i s = .next t →
    (i.opcode = .printTop ∧ s.sp = 0 ∧ t = afterTrap .stackUnderflow s) ∨
    ((∃ e : Event, t.dbg = s.dbg ++ [e] ∧ e.snap = s.stack ∧ e.isReport = false) ∧
      (t.stack = s.stack ∨ (i.opcode = .printTop ∧ ∃ a : Nat, s.stack = t.stack ++ [a])) ∧
      t.ip = s.ip + 1 ∧ t.halted = s.halted ∧ t.trap = s.trap ∧ t.prog = s.prog ∧ t.cfg = s.cfg)

/-- R24: `halted` is set by `Halt` and by nothing else, never cleared by a step, cleared by reset, and a step is taken only while
it is 0. -/
def Obligations.HaltedOnlyByHalt : Prop :=
  (∀ s t : State, step s = .next t → t.halted ≠ s.halted →
    (∃ u : Nat, fetch s = some (.halt u)) ∧ s.halted = false ∧ t.halted = true) ∧
  (∀ (i : Instr) (s t : State), exec i s = .next t → (t.halted = true ↔ s.halted = true ∨ i.opcode = .halt)) ∧
  (∀ s : State, s.halted = true → step s = .next s) ∧
  (∀ s : State, (resetPort s).halted = false) ∧ State.reset.halted = false

/-- R63: `ip` after an arm that completes with `Ok`, and after one that traps. -/
def Obligations.InstructionPointerWrites : Prop :=
  ∀ (i : Instr) (s t : State), s.trap = .ok → exec i s = .next t →
    (t.trap = .ok → t.ip = ipAfter i s) ∧ (t.trap ≠ .ok → t.ip = s.ip)

/-- 10_state.md §4: `sp` changes by +1 on every push, by -1 on every pop, and in no other way (`JmpIf` in both readings of the
spec's decision D6, log entry 2; `PrintTop` under D7, log entry 5). -/
def Obligations.StackPointerLockstep : Prop :=
  ∀ (i : Instr) (s t : State), s.trap = .ok → exec i s = .next t →
    (t.trap = .ok → t.sp + (pushesPops i s).2 = s.sp + (pushesPops i s).1) ∧ (t.trap ≠ .ok → t.sp = s.sp)

/-- 41_stack_ops.md §4: over any run a live slot `n`, the top included, stays live and keeps its value until a step pops the stack
down to `n` or below: no instruction overwrites a live slot in place. The premise excludes only the steps that take slot `n`
off. -/
def Obligations.DeepSlotsPersist : Prop :=
  ∀ (n m : Nat) (s : State), n < s.sp →
    (∀ k, k < m → n + popsOfStep (runSteps k s) < (runSteps k s).sp) →
      n < (runSteps m s).sp ∧ (runSteps m s).stack[n]? = s.stack[n]?

/-! ## The step -/

/-- When the entry at `ip` of a Running engine is `i` (that is, when the word stored there decodes to `i`), the step is `exec i`,
with nothing around it (40_execution_cycle.md §4). -/
def Obligations.StepRunsDecodedInstruction : Prop :=
  ∀ (s : State) (i : Instr) (w : InstrWord s.cfg.wordBits), s.Running → decode s.cfg.wordBits w = .ok i →
    s.prog[s.ip]? = some i → step s = exec i s

/-- What the host's placing of a word makes the next step do, from every state (the model's own, log entry 23). -/
def Obligations.PlacedWordRuns : Prop :=
  ∀ (s : State) (nbits w : Nat) (i : Instr),
    decode s.cfg.wordBits (wordOfTable s.cfg.wordBits nbits w) = .ok i →
      (s.withFetchWord nbits w).Running ∧ (s.withFetchWord nbits w).prog[s.ip]? = some i ∧
      step (s.withFetchWord nbits w) = exec i (s.withFetchWord nbits w) ∧
      (∀ k, k < s.programSize → k ≠ s.ip → (s.withFetchWord nbits w).prog[k]? = s.prog[k]?) ∧
      (s.withFetchWord nbits w).stack = s.stack ∧ (s.withFetchWord nbits w).ip = s.ip ∧
      (s.withFetchWord nbits w).dbg = s.dbg

/-- No step and no instruction stops: each answers a next state, a trap among them. This is the model's deduction of log entry 21
(DEDUCED), from 40_execution_cycle.md §4: "Each arm either raises exactly one trap, or completes with outcome `Ok`". -/
def Obligations.EveryStepAnswersNext : Prop :=
  (∀ (i : Instr) (s : State), ∃ t : State, exec i s = .next t) ∧ (∀ s : State, ∃ t : State, step s = .next t)

/-- 40_execution_cycle.md §2 and 10_state.md §11 (d), (e): a step request in a terminal state changes nothing, and so no number
of them does (the spec's decision D23, log entry 18). -/
def Obligations.TerminalForever : Prop :=
  ∀ s : State, s.Terminal → step s = .next s ∧ ∀ n, runSteps n s = s

/-- 40_execution_cycle.md §3: a fetch with `ip >= program_size`, compared on all bits, is the trap `IllegalInstructionAccess`, and
nothing is executed (that it is a step of its own is the spec's decision D14, log entry 11). -/
def Obligations.FailedFetchTraps : Prop :=
  ∀ s : State, s.Running → s.programSize ≤ s.ip → step s = .next (afterTrap .illegalInstructionAccess s)

/-- R66: the model's step is the pseudocode of R66 over a stack array and a size pointer, on the live part of every array state;
dead slots and entries above the fill count play no role. -/
def Obligations.StepRefinesPseudocode : Prop :=
  ∀ x : Pseudocode.ArrayState, x.cfg.jmpIfNotTakenKeeps = true →
    step (Pseudocode.live x) = .next (Pseudocode.live (Pseudocode.step x))

/-! ## Traps -/

/-- R112 and R113: a trap writes its cause and emits one report with the live stack, and nothing else changes; the engine is then
terminal. -/
def Obligations.TrapsArePrecise : Prop :=
  ∀ s t : State, s.trap = .ok → step s = .next t → t.trap ≠ .ok →
    t.Terminal ∧ t.stack = s.stack ∧ t.sp = s.sp ∧ t.ip = s.ip ∧ t.halted = s.halted ∧ t.prog = s.prog ∧
    t.cfg = s.cfg ∧ t.dbg = s.dbg ++ [.trapReport t.trap s.stack]

/-- 60_exceptions.md §4: at most one trap a step, the first failing check in the order arity, value, capacity; if none fails the
instruction completes and `trap` is not written (the order of the last two is the spec's decision D8, log entry 6). -/
def Obligations.FirstFailingCheckDecides : Prop :=
  ∀ (i : Instr) (s : State),
    (∀ T : Trap, firstFailure i s = some T → exec i s = .next (afterTrap T s)) ∧
    (firstFailure i s = none → ∃ t : State, exec i s = .next t ∧ t.trap = s.trap ∧
      ∀ e ∈ t.dbg, e ∈ s.dbg ∨ e.isReport = false)

/-- 60_exceptions.md §1, the table of R110: the traps a step can end in are the failed fetch or those of its instruction. -/
def Obligations.TrapsPerInstruction : Prop :=
  ∀ s t : State, s.Running → step s = .next t → t.trap ≠ .ok →
    (s.programSize ≤ s.ip ∧ t.trap = .illegalInstructionAccess) ∨
    (∃ i : Instr, s.prog[s.ip]? = some i ∧ t.trap ∈ trapsOf i)

/-- 10_state.md §8: the codes of the trap register, 0 to 4, each of its own; 5, 6 and 7 are never produced (the numbers are the
spec's decision D10, log entry 7). -/
def Obligations.TrapCodes : Prop :=
  Trap.ok.code = 0 ∧ Trap.stackOverflow.code = 1 ∧ Trap.stackUnderflow.code = 2 ∧ Trap.divideByZero.code = 3 ∧
  Trap.illegalInstructionAccess.code = 4 ∧ (∀ T : Trap, T.code.toNat ≤ 4) ∧ ∀ T T' : Trap, T.code = T'.code → T = T'

/-! ## Invariants -/

/-- 10_state.md §11: from every state that meets the invariants R29 (a), (b), (c) and (f), with every value a Word, a step leads
to one that meets them. -/
def Obligations.StepKeepsWf : Prop :=
  ∀ s t : State, s.Wf → step s = .next t → t.Wf

/-- 60_exceptions.md §3 and §5: the trap register and the event log agree after every step; so at most one report is ever made,
and it is the last event. -/
def Obligations.StepKeepsReportsAgree : Prop :=
  ∀ s t : State, s.ReportsAgree → step s = .next t → t.ReportsAgree

/-- The reset state meets both invariants, for every value of the parameters that R6 allows. -/
def Obligations.ResetMeetsInvariants : Prop :=
  (∀ c : Config, c.wf → (State.resetWith c).Wf ∧ (State.resetWith c).ReportsAgree) ∧
  State.reset.Wf ∧ State.reset.ReportsAgree

/-- 10_state.md §11 (g): over any run the event log only grows, and no event in it is altered. -/
def Obligations.EventLogOnlyGrows : Prop :=
  ∀ (n : Nat) (s : State), s.dbg <+: (runSteps n s).dbg

/-! ## What a run cannot depend on -/

/-- 30_encoding.md §3: over any run, the operand fields of opcodes that take no operand have no effect: a program and the same
program with these fields zero run alike (the spec's decision D19, log entry 16). -/
def Obligations.UnusedOperandsIgnored : Prop :=
  ∀ (n : Nat) (s : State),
    runSteps n { s with prog := s.prog.map canonical } =
      { runSteps n s with prog := (runSteps n s).prog.map canonical }

/-- 10_state.md §9: no instruction reads the event log: over any run, whatever the log held before, the same events are appended
and everything else is the same. -/
def Obligations.EventLogNeverRead : Prop :=
  ∀ (n : Nat) (s : State) (log : List Event), ∃ added : List Event,
    (runSteps n s).dbg = s.dbg ++ added ∧
    runSteps n { s with dbg := log } = { runSteps n s with dbg := log ++ added }

/-! ## Runs -/

/-- 40_execution_cycle.md §8: how a run ends inside the engine: by `Halt`, by an instruction's trap, whose cause is the first
check that the instruction at `ip` fails, or by a failed fetch, with the state R67's table gives (the `ip` of the first row
rests on decision D15, log entry 12; the cause's order on D8, log entry 6). -/
def Obligations.HowARunEnds : Prop :=
  ∀ s t : State, s.Running → step s = .next t → t.Terminal →
    ((∃ u : Nat, s.prog[s.ip]? = some (.halt u)) ∧ t.halted = true ∧ t.trap = .ok ∧ t.ip = s.ip + 1) ∨
    ((∃ i : Instr, s.prog[s.ip]? = some i ∧ firstFailure i s = some t.trap) ∧ t.halted = false ∧ t.Trapped ∧ t.ip = s.ip) ∨
    (s.programSize ≤ s.ip ∧ t.halted = false ∧ t.trap = .illegalInstructionAccess ∧ t.ip = s.ip)

/-- 40_execution_cycle.md §9: a host with budget `N` sees the state after `min(N, k)` steps, where `k` is the number of steps
after which the engine is terminal; with no such `k` within the budget, the state after `N` steps (decision D18, log entry 15). -/
def Obligations.BudgetedRun : Prop :=
  ∀ (N : Nat) (s : State),
    (∀ k, (runSteps k s).Terminal → (∀ j, j < k → (runSteps j s).Running) → budgetRun N s = runSteps (min N k) s) ∧
    ((∀ j, j < N → (runSteps j s).Running) → budgetRun N s = runSteps N s)

/-- 40_execution_cycle.md §9: a jump to its own index is a loop that the engine never leaves: it steps for ever with no change. -/
def Obligations.SelfJumpLoops : Prop :=
  ∀ s : State, s.Running → s.prog[s.ip]? = some (.jmp s.ip) → ∀ n, runSteps n s = s ∧ (runSteps n s).Running

/-! ## Reset and the host's ports -/

/-- R30: the reset values, for a reset block with any parameters and through the reset port from any state; the engine is
Running. -/
def Obligations.ResetValues : Prop :=
  (∀ c : Config, (State.resetWith c).sp = 0 ∧ (State.resetWith c).programSize = 0 ∧ (State.resetWith c).ip = 0 ∧
    (State.resetWith c).halted = false ∧ (State.resetWith c).trap = .ok ∧ (State.resetWith c).dbg = [] ∧
    (State.resetWith c).Running) ∧
  (∀ s : State, resetPort s = State.resetWith s.cfg) ∧
  (∃ c : Config, State.reset = State.resetWith c)

/-- 40_execution_cycle.md §8 (R68): with no program the first step after reset is a failed fetch at index 0. -/
def Obligations.EmptyStoreTrapsAtOnce : Prop :=
  ∀ c : Config, step (State.resetWith c) =
    .next { State.resetWith c with trap := .illegalInstructionAccess, dbg := [.trapReport .illegalInstructionAccess []] }

/-- R97: `append` of an Instruction or of its word: `BadOpcode` first, then `ProgramFull`, each changing nothing; otherwise one
more entry at the end, nothing else. -/
def Obligations.AppendContract : Prop :=
  (∀ (i : Instr) (s : State), s.programSize ≠ s.cfg.programCapacity →
    append i s = (.ok, { s with prog := s.prog ++ [i] }) ∧ (append i s).2.programSize = s.programSize + 1) ∧
  (∀ (i : Instr) (s : State), s.programSize = s.cfg.programCapacity → append i s = (.programFull, s)) ∧
  (∀ (w : Nat) (s : State), 0x0B < (opcField (BitVec.ofNat (opcBits + s.cfg.wordBits) w)).toNat →
    appendWord w s = (.badOpcode, s)) ∧
  (∀ (i : Instr) (s : State), i.WellFormed s.cfg.wordBits →
    appendWord (encode s.cfg.wordBits i).toNat s = append i s)

/-- 50_interfaces.md §2: after a step request every append is refused until the next reset (the spec's decision D17, log
entry 14). -/
def Obligations.AppendRefusedAfterStep : Prop :=
  (∀ (i : Instr) (x : Session), x.phase = .stepping →
    Session.act (.append i) x = .refused .appendAfterFirstStep) ∧
  (∀ (w : Nat) (x : Session), x.phase = .stepping →
    Session.act (.appendWord w) x = .refused .appendAfterFirstStep) ∧
  (∀ (a : HostAction) (x y : Session), Session.act a x = .next y →
    (a = .stepRequest → y.phase = .stepping) ∧ (a = .reset → y.phase = .loading) ∧
    (x.phase = .stepping → a ≠ .reset → y.phase = .stepping ∧ y.block.prog = x.block.prog))

/-- From EVERY state that meets both invariants, each action of the host that the session takes leads to one that meets them, with
the same parameters: the two appends by themselves, one action of a session in any phase, and any sequence of actions; and the
session's start meets them (10_state.md §11, 50_interfaces.md §6; the refusal of an append after a step is decision D17, log
entry 14, and the operand's width in a payload is log entry 26). -/
def Obligations.SessionsKeepInvariants : Prop :=
  (∀ (i : Instr) (s : State), s.Wf → s.ReportsAgree → i.WellFormed s.cfg.wordBits →
    (append i s).2.Wf ∧ (append i s).2.ReportsAgree ∧ (append i s).2.cfg = s.cfg) ∧
  (∀ (w : Nat) (s : State), s.Wf → s.ReportsAgree →
    (appendWord w s).2.Wf ∧ (appendWord w s).2.ReportsAgree ∧ (appendWord w s).2.cfg = s.cfg) ∧
  (∀ (a : HostAction) (x y : Session), x.block.Wf → x.block.ReportsAgree → a.WellFormed x.block.cfg.wordBits →
    Session.act a x = .next y → y.block.Wf ∧ y.block.ReportsAgree ∧ y.block.cfg = x.block.cfg) ∧
  (∀ (actions : List HostAction) (x y : Session), x.block.Wf → x.block.ReportsAgree →
    (∀ a ∈ actions, a.WellFormed x.block.cfg.wordBits) → Session.actAll actions x = .next y →
      y.block.Wf ∧ y.block.ReportsAgree ∧ y.block.cfg = x.block.cfg) ∧
  (∀ c : Config, c.wf → (Session.start c).block.Wf ∧ (Session.start c).block.ReportsAgree ∧ (Session.start c).block.cfg = c)

/-- 70_reset_and_hazards.md §2: reset, the appends of a program that fits, then `n` step requests are accepted, and leave the
state `n` steps give from reset with that program in the store. -/
def Obligations.BootSequenceRuns : Prop :=
  ∀ (c : Config) (program : List Instr) (n : Nat) (x : Session), x.block.cfg = c → program.length ≤ c.programCapacity →
    ∃ y : Session,
      Session.actAll (.reset :: program.map .append ++ List.replicate n .stepRequest) x = .next y ∧
      y.block = runSteps n { State.resetWith c with prog := program }

/-- R105: read-out gives the values of `ip`, `sp`, `halted`, `trap`, `program_size` and the live slots, so two states with the same
read-out have the same; it exposes no dead slot, and it has no side effect. -/
def Obligations.ReadOutValues : Prop :=
  (∀ s : State, (readOut s).ip = s.ip ∧ (readOut s).sp = s.sp ∧ (readOut s).halted = s.halted ∧
    (readOut s).trapCode = s.trap.code ∧ (readOut s).programSize = s.programSize ∧ (readOut s).liveSlots = s.stack ∧
    (readOut s).liveSlots.length = (readOut s).sp) ∧
  (∀ s t : State, readOut s = readOut t →
    s.ip = t.ip ∧ s.stack = t.stack ∧ s.halted = t.halted ∧ s.trap = t.trap ∧ s.programSize = t.programSize) ∧
  (∀ x : Session, Session.act .readOut x = .next x)
end

