-- ==== Sys2Proof/Laws/Decode.lean ====
section
/-!
SUPPORT. The spec lemmas of the instruction word's fields and of the bytes of an operand.
-/

namespace Sys2Proof

theorem opcField_packWord (W : Nat) (o : BitVec opcBits) (v : Nat) : opcField (packWord W o v) = o := by
  apply BitVec.eq_of_getElem_eq
  intro k hk
  rw [opcField, packWord, BitVec.getElem_extractLsb', BitVec.getLsbD_append]
  simp [hk]

theorem operandField_packWord (W : Nat) (o : BitVec opcBits) (v : Nat) :
    operandField (packWord W o v) = v % 2 ^ W := by
  simp [operandField, packWord, BitVec.toNat_append, Nat.or_mod_two_pow, Nat.shiftLeft_eq]

/-- A word is its two fields put together (R46). -/
theorem packWord_fields (W : Nat) (w : InstrWord W) : packWord W (opcField w) (operandField w) = w := by
  apply BitVec.eq_of_getLsbD_eq
  intro k hk
  simp only [packWord, opcField, operandField, BitVec.ofNat_toNat, BitVec.getLsbD_append]
  by_cases h : k < W
  · simp [h]
  · simp [h, BitVec.getLsbD_extractLsb']
    have : k - W < opcBits := by omega
    have h2 : W + (k - W) = k := by omega
    simp [this, h2]

theorem leBytes_length (k v : Nat) : (leBytes k v).length = k := by
  induction k generalizing v with
  | zero => rfl
  | succ k ih => simp [leBytes, ih]

/-- Byte `j` of the `k` low bytes, counted from the least significant. -/
theorem leBytes_getElem? (k v j : Nat) (h : j < k) : (leBytes k v)[j]? = some (BitVec.ofNat 8 (v / 2 ^ (8 * j))) := by
  induction k generalizing v j with
  | zero => omega
  | succ k ih =>
    cases j with
    | zero => simp [leBytes]
    | succ j =>
      simp only [leBytes, List.getElem?_cons_succ]
      rw [ih _ _ (by omega), Nat.div_div_eq_div_mul, ← Nat.pow_add, show 8 + 8 * j = 8 * (j + 1) by omega]

/-- The `k` low bytes of a number below `2^(8k)` give the number back. -/
theorem ofLeBytes_leBytes (k v : Nat) (h : v < 2 ^ (8 * k)) : ofLeBytes (leBytes k v) = v := by
  induction k generalizing v with
  | zero => simp at h; simp [leBytes, ofLeBytes, h]
  | succ k ih =>
    have hpow : 2 ^ (8 * (k + 1)) = 2 ^ (8 * k) * 2 ^ 8 := by rw [← Nat.pow_add]; congr 1
    have hv : v / 2 ^ 8 < 2 ^ (8 * k) := Nat.div_lt_of_lt_mul (by rw [hpow] at h; linarith)
    simp only [leBytes, ofLeBytes, ih _ hv, BitVec.toNat_ofNat]
    exact Nat.mod_add_div v (2 ^ 8)

end Sys2Proof
end

