-- ==== Sys2Proof/Laws/State.lean ====
section
/-!
SUPPORT. What each update of the state writes and what it leaves: one lemma a field an update, each true by rfl, so that no later
proof unfolds a record update.
-/

namespace Sys2Proof.Machine

variable (s : State)

@[simp] theorem setIp_cfg (t : Nat) : (setIp t s).cfg = s.cfg := rfl
@[simp] theorem setIp_stack (t : Nat) : (setIp t s).stack = s.stack := rfl
@[simp] theorem setIp_prog (t : Nat) : (setIp t s).prog = s.prog := rfl
@[simp] theorem setIp_ip (t : Nat) : (setIp t s).ip = t := rfl
@[simp] theorem setIp_halted (t : Nat) : (setIp t s).halted = s.halted := rfl
@[simp] theorem setIp_trap (t : Nat) : (setIp t s).trap = s.trap := rfl
@[simp] theorem setIp_dbg (t : Nat) : (setIp t s).dbg = s.dbg := rfl

@[simp] theorem advance_cfg : (advance s).cfg = s.cfg := rfl
@[simp] theorem advance_stack : (advance s).stack = s.stack := rfl
@[simp] theorem advance_prog : (advance s).prog = s.prog := rfl
@[simp] theorem advance_ip : (advance s).ip = s.ip + 1 := rfl
@[simp] theorem advance_halted : (advance s).halted = s.halted := rfl
@[simp] theorem advance_trap : (advance s).trap = s.trap := rfl
@[simp] theorem advance_dbg : (advance s).dbg = s.dbg := rfl

@[simp] theorem setStack_cfg (st : List Nat) : (setStack st s).cfg = s.cfg := rfl
@[simp] theorem setStack_stack (st : List Nat) : (setStack st s).stack = st := rfl
@[simp] theorem setStack_prog (st : List Nat) : (setStack st s).prog = s.prog := rfl
@[simp] theorem setStack_ip (st : List Nat) : (setStack st s).ip = s.ip := rfl
@[simp] theorem setStack_halted (st : List Nat) : (setStack st s).halted = s.halted := rfl
@[simp] theorem setStack_trap (st : List Nat) : (setStack st s).trap = s.trap := rfl
@[simp] theorem setStack_dbg (st : List Nat) : (setStack st s).dbg = s.dbg := rfl

@[simp] theorem emit_cfg (e : Event) : (emit e s).cfg = s.cfg := rfl
@[simp] theorem emit_stack (e : Event) : (emit e s).stack = s.stack := rfl
@[simp] theorem emit_prog (e : Event) : (emit e s).prog = s.prog := rfl
@[simp] theorem emit_ip (e : Event) : (emit e s).ip = s.ip := rfl
@[simp] theorem emit_halted (e : Event) : (emit e s).halted = s.halted := rfl
@[simp] theorem emit_trap (e : Event) : (emit e s).trap = s.trap := rfl
@[simp] theorem emit_dbg (e : Event) : (emit e s).dbg = s.dbg ++ [e] := rfl

@[simp] theorem setHalted_cfg : (setHalted s).cfg = s.cfg := rfl
@[simp] theorem setHalted_stack : (setHalted s).stack = s.stack := rfl
@[simp] theorem setHalted_prog : (setHalted s).prog = s.prog := rfl
@[simp] theorem setHalted_ip : (setHalted s).ip = s.ip := rfl
@[simp] theorem setHalted_halted : (setHalted s).halted = true := rfl
@[simp] theorem setHalted_trap : (setHalted s).trap = s.trap := rfl
@[simp] theorem setHalted_dbg : (setHalted s).dbg = s.dbg := rfl

@[simp] theorem trapEntry_cfg (T : Trap) : (trapEntry T s).cfg = s.cfg := rfl
@[simp] theorem trapEntry_stack (T : Trap) : (trapEntry T s).stack = s.stack := rfl
@[simp] theorem trapEntry_prog (T : Trap) : (trapEntry T s).prog = s.prog := rfl
@[simp] theorem trapEntry_ip (T : Trap) : (trapEntry T s).ip = s.ip := rfl
@[simp] theorem trapEntry_halted (T : Trap) : (trapEntry T s).halted = s.halted := rfl
@[simp] theorem trapEntry_trap (T : Trap) : (trapEntry T s).trap = T := rfl
@[simp] theorem trapEntry_dbg (T : Trap) : (trapEntry T s).dbg = s.dbg ++ [.trapReport T s.stack] := rfl

@[simp] theorem setStack_sp (st : List Nat) : (setStack st s).sp = st.length := rfl
@[simp] theorem setIp_sp (t : Nat) : (setIp t s).sp = s.sp := rfl
@[simp] theorem advance_sp : (advance s).sp = s.sp := rfl
@[simp] theorem emit_sp (e : Event) : (emit e s).sp = s.sp := rfl
@[simp] theorem setHalted_sp : (setHalted s).sp = s.sp := rfl
@[simp] theorem trapEntry_sp (T : Trap) : (trapEntry T s).sp = s.sp := rfl

end Sys2Proof.Machine
end

