-- ==== Sys2Proof/Laws/Ops.lean ====
section
/-!
SUPPORT. The spec lemmas of the operations of Machine/Ops.lean, and the cases of a step.
-/

namespace Sys2Proof.Machine

theorem running_eq_true_iff (s : State) : running s = true ↔ s.halted = false ∧ s.trap = .ok := by
  simp [running]

theorem running_eq_false_iff (s : State) : running s = false ↔ s.halted = true ∨ s.trap ≠ .ok := by
  cases h : s.halted <;> simp [running, h]

/-- A fetch answers exactly when `ip` lies in `[0, program_size)` (R61). -/
theorem fetch_eq_none_iff (s : State) : fetch s = none ↔ s.programSize ≤ s.ip := by
  simp [fetch, State.programSize]

theorem fetch_eq_some_iff (s : State) (i : Instr) :
    fetch s = some i ↔ ∃ h : s.ip < s.programSize, s.prog[s.ip]'h = i := by
  simp only [fetch, State.programSize]
  exact List.getElem?_eq_some_iff

/-- What a fetch answers is an entry of the program store. -/
theorem mem_prog_of_fetch {s : State} {i : Instr} (h : fetch s = some i) : i ∈ s.prog :=
  List.mem_of_getElem? h

/-- An outcome of `raise` is the trapped state (R113). -/
theorem raise_eq_next_iff (T : Trap) (s t : State) : raise T s = .next t ↔ t = trapEntry T s := by
  simp [raise, eq_comm]

/-- The entry that `placeEntry` writes is found at its index. -/
theorem placeEntry_getElem? (k : Nat) (i : Instr) (p : List Instr) : (placeEntry k i p)[k]? = some i := by
  unfold placeEntry
  split
  · simp [*]
  · rename_i h
    have hlen : (p ++ List.replicate (k - p.length) i).length = k := by
      rw [List.length_append, List.length_replicate]; omega
    rw [List.getElem?_append_right (by omega), hlen]
    simp

/-- Every step is one of three: none taken, a failed fetch, the fetched instruction's effect (R60, R61, R62). -/
theorem step_cases (s : State) :
    (running s = false ∧ step s = .next s) ∨
    (running s = true ∧ fetch s = none ∧ step s = raise .illegalInstructionAccess s) ∨
    (∃ i, running s = true ∧ fetch s = some i ∧ step s = exec i s) := by
  cases hr : running s with
  | false => simp [step, hr]
  | true =>
    cases hf : fetch s with
    | none => simp [step, hr, hf]
    | some i => simp [step, hr, hf]

end Sys2Proof.Machine
end

