-- ==== Sys2Proof/Laws/Operands.lean ====
section
/-!
SUPPORT. The spec lemmas of the accesses to the operand stack, of a push, and of the shared form of the binary instructions.
-/

namespace Sys2Proof.Machine

theorem takeTop_append (below : List Nat) (a : Nat) : takeTop (below ++ [a]) = some (below, a) := by
  simp [takeTop]

theorem takeTop_eq_none_iff (st : List Nat) : takeTop st = none ↔ st = [] := by
  unfold takeTop
  split <;> rename_i h
  · have : st ≠ [] := by rintro rfl; simp at h
    simp [this]
  · simpa using h

theorem takeTop_eq_some_iff (st below : List Nat) (a : Nat) : takeTop st = some (below, a) ↔ st = below ++ [a] := by
  constructor
  · intro h
    unfold takeTop at h
    split at h
    · rename_i h'
      simp only [Option.some.injEq, Prod.mk.injEq] at h
      have := congrArg List.reverse h'
      simp_all
    · simp at h
  · rintro rfl
    exact takeTop_append below a

theorem takeTopTwo_append (below : List Nat) (a b : Nat) : takeTopTwo (below ++ [a, b]) = some (below, a, b) := by
  simp [takeTopTwo]

theorem takeTopTwo_eq_some_iff (st below : List Nat) (a b : Nat) :
    takeTopTwo st = some (below, a, b) ↔ st = below ++ [a, b] := by
  constructor
  · intro h
    unfold takeTopTwo at h
    split at h
    · rename_i h'
      simp only [Option.some.injEq, Prod.mk.injEq] at h
      have := congrArg List.reverse h'
      simp_all
    · simp at h
  · rintro rfl
    exact takeTopTwo_append below a b

/-- A stack of two or more elements is what lies below its top two, and these two. -/
theorem exists_append_two {st : List Nat} (h : 2 ≤ st.length) : ∃ below a b, st = below ++ [a, b] := by
  cases hr : st.reverse with
  | nil => simp_all
  | cons b rest =>
    cases rest with
    | nil => have := congrArg List.length hr; simp at this; omega
    | cons a below => exact ⟨below.reverse, a, b, by have := congrArg List.reverse hr; simpa using this⟩

theorem takeTopTwo_eq_none_iff (st : List Nat) : takeTopTwo st = none ↔ st.length < 2 := by
  constructor
  · intro h
    by_contra hlen
    obtain ⟨below, a, b, rfl⟩ := exists_append_two (Nat.not_lt.mp hlen)
    simp [takeTopTwo_append] at h
  · intro h
    cases ht : takeTopTwo st with
    | none => rfl
    | some p =>
      obtain ⟨below, a, b⟩ := p
      rw [takeTopTwo_eq_some_iff] at ht
      simp [ht] at h

theorem slot_eq_none_iff (st : List Nat) (n : Nat) : slot st n = none ↔ st.length ≤ n := by
  simp [slot]

/-- A push either traps on a full stack or leaves the stack with `v` on top (R71). -/
theorem pushAdvance_cases (v : Nat) (s : State) :
    (s.sp = s.cfg.stackCapacity ∧ pushAdvance v s = raise .stackOverflow s) ∨
    (s.sp ≠ s.cfg.stackCapacity ∧ pushAdvance v s = .next (advance (setStack (s.stack ++ [v]) s))) := by
  unfold pushAdvance
  split <;> simp_all

/-- A binary instruction underflows, fails its check of `b`, or replaces the top two by its result (R75). -/
theorem binary_cases (check : Nat → Option Trap) (result : Nat → Nat → Nat) (s : State) :
    (s.sp < 2 ∧ binary check result s = raise .stackUnderflow s) ∨
    (∃ below a b, s.stack = below ++ [a, b] ∧
      ((∃ T, check b = some T ∧ binary check result s = raise T s) ∨
       (check b = none ∧ binary check result s = .next (advance (setStack (below ++ [result a b]) s))))) := by
  cases ht : takeTopTwo s.stack with
  | none =>
    refine .inl ⟨(takeTopTwo_eq_none_iff _).mp ht, ?_⟩
    simp [binary, ht]
  | some p =>
    obtain ⟨below, a, b⟩ := p
    refine .inr ⟨below, a, b, (takeTopTwo_eq_some_iff _ _ _ _).mp ht, ?_⟩
    cases hc : check b with
    | none => simp [binary, ht, hc]
    | some T => simp [binary, ht, hc]

end Sys2Proof.Machine
end

