-- ==== Sys2Proof/Laws/PerInstr.lean ====
section
/-!
SUPPORT. The family OpcodeMap: for every Instruction, what R45 and R50 say of it as syntax. Its opcode has a number of R50's map,
the map reads that number back, and the Instruction is the pair of its opcode and its operand.
-/

namespace Sys2Proof.Laws.OpcodeMap

/-- The opcode's number is one of `0x00 .. 0x0B` and selects that opcode (R50), and the pair is the Instruction (R45). -/
def Statement (i : Instr) : Prop :=
  i.opcode.number.toNat ≤ 0x0B ∧ opcodeOf i.opcode.number = some i.opcode ∧ Instr.ofPair i.opcode i.operand = i

/-- Every number of the map is one of `0x00 .. 0x0B`. -/
theorem number_le (o : Opcode) : o.number.toNat ≤ 0x0B := by cases o <;> decide

theorem push (v : Nat) : Statement (.push v) := ⟨number_le _, rfl, rfl⟩
theorem add (v : Nat) : Statement (.add v) := ⟨number_le _, rfl, rfl⟩
theorem sub (v : Nat) : Statement (.sub v) := ⟨number_le _, rfl, rfl⟩
theorem mul (v : Nat) : Statement (.mul v) := ⟨number_le _, rfl, rfl⟩
theorem div (v : Nat) : Statement (.div v) := ⟨number_le _, rfl, rfl⟩
theorem dup (n : Nat) : Statement (.dup n) := ⟨number_le _, rfl, rfl⟩
theorem eq (v : Nat) : Statement (.eq v) := ⟨number_le _, rfl, rfl⟩
theorem jmp (t : Nat) : Statement (.jmp t) := ⟨number_le _, rfl, rfl⟩
theorem jmpIf (t : Nat) : Statement (.jmpIf t) := ⟨number_le _, rfl, rfl⟩
theorem halt (v : Nat) : Statement (.halt v) := ⟨number_le _, rfl, rfl⟩
theorem dumpStack (v : Nat) : Statement (.dumpStack v) := ⟨number_le _, rfl, rfl⟩
theorem printTop (v : Nat) : Statement (.printTop v) := ⟨number_le _, rfl, rfl⟩

end Sys2Proof.Laws.OpcodeMap
end

