-- ==== Sys2Proof/Tests/Slice0.lean ====
section
/-!
SUPPORT. Checks of the model against the spec's own examples and vectors (each test names its source), and for every statement of
Certificates/Slice0/Obligations.lean that has hypotheses, a witness that meets them, one for each clause, at boundary values.
-/

namespace Sys2Proof.Tests

open Sys2Proof.Machine

/-- A Running block at `ip = 0` with `STACK_CAPACITY = cap`, the given live stack and the given program. -/
def block (cap : Nat) (st : List Nat) (p : List Instr) : State where
  cfg := { Config.test with stackCapacity := cap }
  stack := st
  prog := p
  ip := 0
  halted := false
  trap := .ok
  dbg := []

/-- The state after one step. -/
def after (cap : Nat) (st : List Nat) (i : Instr) : State := stepState (block cap st [i])

/-! ## WellFormed: its one check, the operand is a Word -/

theorem test_wf_accepts_top_word : (Instr.push (2 ^ 64 - 1)).WellFormed 64 := by decide
theorem test_wf_refuses_push : ¬ (Instr.push (2 ^ 64)).WellFormed 64 := by decide
theorem test_wf_refuses_unused_operand : ¬ (Instr.halt 256).WellFormed 8 := by decide

/-! ## Decoding: words written out from R46 and R50 (95_test_vectors.md V-ENC, and its programs) -/

theorem test_decode_push : decodeTableWord 72 0x000000000000000045 = some (.push 69) := by decide
theorem test_decode_add : decodeTableWord 72 0x010000000000000005 = some (.add 5) := by decide
theorem test_decode_sub : decodeTableWord 72 0x020000000000000000 = some (.sub 0) := by decide
theorem test_decode_mul : decodeTableWord 72 0x030000000000000000 = some (.mul 0) := by decide
theorem test_decode_div : decodeTableWord 72 0x040000000000000000 = some (.div 0) := by decide
theorem test_decode_dup : decodeTableWord 72 0x050000000000000005 = some (.dup 5) := by decide
theorem test_decode_eq : decodeTableWord 72 0x060000000000000000 = some (.eq 0) := by decide
theorem test_decode_jmp : decodeTableWord 72 0x070000000000000002 = some (.jmp 2) := by decide
theorem test_decode_jmpIf : decodeTableWord 72 0x080000000000000009 = some (.jmpIf 9) := by decide
theorem test_decode_halt : decodeTableWord 72 0x090000000000000000 = some (.halt 0) := by decide
theorem test_decode_dumpStack : decodeTableWord 72 0x0A0000000000000000 = some (.dumpStack 0) := by decide
theorem test_decode_printTop : decodeTableWord 72 0x0B0000000000000000 = some (.printTop 0) := by decide
theorem test_decode_first_reserved : decodeTableWord 72 0x0C0000000000000000 = none := by decide
theorem test_decode_last_reserved : decodeTableWord 72 0xFF0000000000000000 = none := by decide
/-- R58's example: `Push(69)` at `W = 64` is these nine bytes. -/
theorem test_bytes_push :
    decodeBytes 64 [0x00, 0x45, 0x00, 0x00, 0x00, 0x00, 0x00, 0x00, 0x00] = .ok (.push 69, []) := by rfl
theorem test_bytes_truncated : decodeBytes 64 [0x00, 0x45] = .error .truncated := by rfl
theorem test_bytes_odd_width : decodeBytes 12 [0x00, 0x45, 0x00] = .error .widthNotBytes ∧
    encodeBytes 12 (.push 0xF45) = .error .widthNotBytes := ⟨rfl, rfl⟩
/-- R58: least significant byte first, the opcode (Jmp, 0x07) before it. -/
theorem test_bytes_order : encodeBytes 16 (.jmp 0x0102) = .ok [0x07, 0x02, 0x01] := by rfl

/-- A word placed in the reset block is what the first step runs (V-PUSH's first rows, through the host's entry). -/
theorem test_placed_push_runs :
    (stepState (State.reset.withFetchWord 72 0x00FFFFFFFFFFFFFFFF)).stack = [2 ^ 64 - 1] := by decide
theorem test_placed_reserved_refused : State.reset.withFetchWord 72 0x0C0000000000000000 = State.reset := by decide

/-! ## One step of each instruction -/

/-- V-PUSH: a full stack. -/
theorem test_push_full : (after 2 [1, 9] (.push 5)).trap = .stackOverflow ∧ (after 2 [1, 9] (.push 5)).stack = [1, 9] := by decide
/-- V-PUSH: the push that fills the stack. -/
theorem test_push_fills : (after 2 [1] (.push 5)).stack = [1, 5] ∧ (after 2 [1] (.push 5)).ip = 1 := by decide
/-- V-DUP, the C2 case: the top of a two-element stack is a valid index. -/
theorem test_dup_top : (after 8 [0, 1] (.dup 1)).stack = [0, 1, 1] ∧ (after 8 [10, 20, 30] (.dup 0)).stack = [10, 20, 30, 10] := by decide
/-- V-DUP: the order of the three checks (decision D8). -/
theorem test_dup_checks :
    (after 2 [1, 2] (.dup 2)).trap = .illegalInstructionAccess ∧ (after 2 [1, 2] (.dup 0)).trap = .stackOverflow ∧
    (after 2 [] (.dup 5)).trap = .stackUnderflow := by decide
/-- V-ADD: a wrap, and slot 0 untouched. -/
theorem test_add_wraps : (after 8 [2 ^ 64 - 1, 1] (.add 0)).stack = [0] ∧ (after 8 [1, 2, 3] (.add 0)).stack = [1, 5] := by decide
/-- S2: one element. -/
theorem test_add_underflow : (after 8 [7] (.add 0)).trap = .stackUnderflow ∧ (after 8 [7] (.add 0)).ip = 0 := by decide
/-- V-SUB: `[3, 10]` gives `2^64 - 7`. -/
theorem test_sub_order : (after 8 [3, 10] (.sub 0)).stack = [18446744073709551609] ∧ (after 8 [10, 3] (.sub 0)).stack = [7] := by decide
/-- V-MUL: `(2^32 - 1)^2` does not wrap, `2^32 * 2^32` does. -/
theorem test_mul : (after 8 [4294967295, 4294967295] (.mul 0)).stack = [18446744065119617025] ∧
    (after 8 [4294967296, 4294967296] (.mul 0)).stack = [0] := by decide
/-- V-DIV. -/
theorem test_div : (after 8 [74, 6] (.div 0)).stack = [12] ∧ (after 8 [18446744073709551615, 2] (.div 0)).stack = [9223372036854775807] := by decide
/-- S4 and V-DIV: nothing consumed; underflow comes before the zero divisor. -/
theorem test_div_traps :
    (after 8 [1, 2, 0] (.div 0)).stack = [1, 2, 0] ∧ (after 8 [1, 2, 0] (.div 0)).trap = .divideByZero ∧
    (after 8 [0] (.div 0)).trap = .stackUnderflow := by decide
/-- V-EQ: all 64 bits compared. -/
theorem test_eq : (after 8 [1, 4294967297] (.eq 0)).stack = [0] ∧ (after 8 [5, 3, 3] (.eq 0)).stack = [5, 1] := by decide
/-- V-JMP: the jump to the top Word succeeds. -/
theorem test_jmp : (after 8 [] (.jmp 18446744073709551615)).ip = 18446744073709551615 ∧
    (after 8 [] (.jmp 18446744073709551615)).trap = .ok := by decide
/-- R87's example and V-JMPIF: taken only on 1, kept when not taken. -/
theorem test_jmpIf : (after 8 [0, 1] (.jmpIf 9)).stack = [0] ∧ (after 8 [0, 1] (.jmpIf 9)).ip = 9 ∧
    (after 8 [2] (.jmpIf 0)).stack = [2] ∧ (after 8 [2] (.jmpIf 0)).ip = 1 := by decide
theorem test_jmpIf_underflow : (after 8 [] (.jmpIf 0)).trap = .stackUnderflow := by decide
/-- V-HALT: `[Halt, Push(1)]`. -/
theorem test_halt : (after 8 [] (.halt 0)).ip = 1 ∧ (after 8 [] (.halt 0)).halted = true ∧ (after 8 [] (.halt 0)).trap = .ok := by decide
/-- R92's example. -/
theorem test_dumpStack : (after 8 [12] (.dumpStack 0)).dbg = [.dump [12]] ∧ (after 8 [] (.dumpStack 0)).dbg = [.dump []] := by decide
/-- R93's example: the event carries the stack before the pop. -/
theorem test_printTop : (after 8 [7, 8] (.printTop 0)).dbg = [.print [7, 8]] ∧ (after 8 [7, 8] (.printTop 0)).stack = [7] := by decide
theorem test_printTop_underflow : (after 8 [] (.printTop 0)).dbg = [.trapReport .stackUnderflow []] := by decide
/-- V-FETCH: the empty program. -/
theorem test_empty_program : (stepState State.reset).dbg = [.trapReport .illegalInstructionAccess []] ∧
    (stepState State.reset).ip = 0 := by decide
/-- V-APPEND, `PROGRAM_CAPACITY = 2`. -/
theorem test_append_full :
    append (.halt 0) { block 2 [] [.push 1, .halt 0] with cfg := ⟨64, 2, 2, true⟩ } =
      (.programFull, { block 2 [] [.push 1, .halt 0] with cfg := ⟨64, 2, 2, true⟩ }) := by decide
theorem test_append_bad : (appendWord 0x0C0000000000000000 State.reset).1 = .badOpcode := by decide
/-- R98: an append after the first step request is refused. -/
theorem test_append_after_step :
    Session.actAll [.append (.halt 0), .stepRequest, .append (.halt 0)] (Session.start Config.test) =
      .refused .appendAfterFirstStep := by rfl

/-! ## Witnesses: every statement's hypotheses can be met, each clause of it -/

/-- The top Word of the test configuration. -/
def topWord : Nat := 2 ^ 64 - 1

theorem witness_DecodeEncodeInverse :
    (Instr.push topWord).WellFormed 64 ∧ (opcField (W := 64) 0x0B0000000000000000#72).toNat ≤ 0x0B ∧
    0x0B < (opcField (W := 64) 0x0C0000000000000000#72).toNat := by decide
theorem witness_EncodedWordLayout : (Instr.printTop topWord).WellFormed 64 := by decide
theorem witness_ByteStreamRoundTrip :
    64 % 8 = 0 ∧ (Instr.jmp topWord).WellFormed 64 ∧ (0 < 64 / 8 ∧ 7 < 64 / 8) ∧ 7 % 8 ≠ 0 ∧ 65 % 8 ≠ 0 := by decide
theorem witness_PushResult :
    (block 2 [1] []).sp ≠ (block 2 [1] []).cfg.stackCapacity ∧ (block 2 [1, 2] []).sp = (block 2 [1, 2] []).cfg.stackCapacity := by decide
theorem witness_DupResult :
    ((block 3 [1, 2] []).stack[1]? = some 2 ∧ (block 3 [1, 2] []).sp ≠ (block 3 [1, 2] []).cfg.stackCapacity) ∧
    (block 3 [] []).sp = 0 ∧ (0 < (block 2 [1, 2] []).sp ∧ (block 2 [1, 2] []).sp ≤ 2) ∧
    (1 < (block 2 [1, 2] []).sp ∧ (block 2 [1, 2] []).sp = (block 2 [1, 2] []).cfg.stackCapacity) := by decide
theorem witness_AddResult : (block 2 [topWord, 1] []).stack = [] ++ [topWord, 1] ∧ (block 2 [1] []).sp < 2 := by decide
theorem witness_SubResult : (block 2 [0, 1] []).stack = [] ++ [0, 1] ∧ (block 2 [1] []).sp < 2 := by decide
theorem witness_MulResult : (block 3 [5, topWord, topWord] []).stack = [5] ++ [topWord, topWord] ∧ (block 2 [] []).sp < 2 := by decide
theorem witness_DivResult :
    ((block 2 [topWord, 1] []).stack = [] ++ [topWord, 1] ∧ (1 : Nat) ≠ 0) ∧ (block 2 [0] []).sp < 2 ∧
    (block 2 [0, 0] []).stack = [] ++ [0, 0] := by decide
theorem witness_EqResult : (block 2 [topWord, topWord] []).stack = [] ++ [topWord, topWord] ∧ (block 2 [1] []).sp < 2 := by decide
theorem witness_JmpResult :
    (block 2 [] [.jmp 1]).Running ∧ (block 2 [] [.jmp 1]).prog[(block 2 [] [.jmp 1]).ip]? = some (.jmp 1) ∧
    (block 2 [] [.jmp 1]).programSize ≤ 1 := by decide
theorem witness_JmpIfResult :
    (block 2 [1] []).cfg.jmpIfNotTakenKeeps = true ∧ (block 2 [1] []).stack = [] ++ [1] ∧
    ((block 2 [2] []).stack = [] ++ [2] ∧ (2 : Nat) ≠ 1) ∧ (block 2 [] []).sp = 0 := by decide
theorem witness_JmpIfConsumingReading :
    ({ block 2 [0] [] with cfg := ⟨64, 2, 2, false⟩ } : State).cfg.jmpIfNotTakenKeeps = false ∧
    ({ block 2 [0] [] with cfg := ⟨64, 2, 2, false⟩ } : State).stack = [] ++ [0] := by decide
theorem witness_HaltResult :
    (block 2 [] [.halt 5]).Running ∧ (block 2 [] [.halt 5]).prog[(block 2 [] [.halt 5]).ip]? = some (.halt 5) := by decide
theorem witness_PrintTopResult : (block 2 [7] []).stack = [] ++ [7] ∧ (block 2 [] []).sp = 0 := by decide
theorem witness_ArithmeticModuloWord :
    (block 2 [topWord, topWord] []).stack = [] ++ [topWord, topWord] ∧ IsWord 64 topWord ∧
    (0 + topWord < 2 ^ 64) ∧ topWord ≤ topWord ∧ topWord * 1 < 2 ^ 64 := by decide
theorem witness_DivisionIsFloor :
    ((block 2 [topWord, 1] []).stack = [] ++ [topWord, 1] ∧ (1 : Nat) ≠ 0 ∧ IsWord 64 topWord) ∧
    (topWord * 1 ≤ topWord ∧ topWord < (topWord + 1) * 1) ∧ (block 2 [0, 0] []).stack = [] ++ [0, 0] := by decide
theorem witness_WrapCorners :
    1 ≤ (block 2 [] []).cfg.wordBits ∧ (block 2 [topWord, 1] []).stack = [] ++ [2 ^ 64 - 1, 1] ∧
    (block 2 [0, 1] []).stack = [] ++ [0, 1] ∧ (block 2 [topWord, topWord] []).stack = [] ++ [2 ^ 64 - 1, 2 ^ 64 - 1] ∧
    (IsWord 64 topWord ∧ (block 2 [topWord, topWord] []).stack = [] ++ [topWord, topWord]) := by decide
theorem witness_ProgramNeverWritten :
    exec (.jmp 7) (block 2 [] [.jmp 7]) = .next { block 2 [] [.jmp 7] with ip := 7 } := by rfl
theorem witness_FrameOfPushAndDup :
    exec (.push 5) (block 2 [1] []) = .next { block 2 [1] [] with stack := [1, 5], ip := 1 } ∧
    exec (.dup 0) (block 2 [1] []) = .next { block 2 [1] [] with stack := [1, 1], ip := 1 } ∧
    exec (.dup 1) (block 2 [1] []) = .next (afterTrap .illegalInstructionAccess (block 2 [1] [])) := ⟨rfl, rfl, rfl⟩
theorem witness_FrameOfBinary :
    (block 2 [1] []).sp < 2 ∧ 2 ≤ (block 2 [6, 7] []).sp ∧
    exec (.mul 9) (block 2 [6, 7] []) = .next { block 2 [6, 7] [] with stack := [42], ip := 1 } ∧
    exec (.div 0) (block 2 [6, 0] []) = .next (afterTrap .divideByZero (block 2 [6, 0] [])) := ⟨by decide, by decide, rfl, rfl⟩
theorem witness_FrameOfControl :
    exec (.jmpIf 9) (block 2 [] []) = .next (afterTrap .stackUnderflow (block 2 [] [])) ∧
    exec (.jmpIf 9) (block 2 [1] []) = .next { block 2 [1] [] with stack := [], ip := 9 } ∧
    exec (.jmp 9) (block 2 [1] []) = .next { block 2 [1] [] with ip := 9 } ∧
    exec (.halt 0) (block 2 [1] []) = .next { block 2 [1] [] with halted := true, ip := 1 } := ⟨rfl, rfl, rfl, rfl⟩
theorem witness_FrameOfDebug :
    exec (.printTop 0) (block 2 [] []) = .next (afterTrap .stackUnderflow (block 2 [] [])) ∧
    exec (.printTop 0) (block 2 [7] []) = .next { block 2 [7] [] with stack := [], ip := 1, dbg := [.print [7]] } ∧
    exec (.dumpStack 0) (block 2 [7] []) = .next { block 2 [7] [] with ip := 1, dbg := [.dump [7]] } := ⟨rfl, rfl, rfl⟩
theorem witness_HaltedOnlyByHalt :
    (step (block 2 [] [.halt 0]) = .next { block 2 [] [.halt 0] with halted := true, ip := 1 } ∧
      ({ block 2 [] [.halt 0] with halted := true, ip := 1 } : State).halted ≠ (block 2 [] [.halt 0]).halted) ∧
    exec (.halt 0) (block 2 [] []) = .next { block 2 [] [] with halted := true, ip := 1 } ∧
    ({ block 2 [] [] with halted := true } : State).halted = true := ⟨⟨rfl, by decide⟩, rfl, by decide⟩
theorem witness_InstructionPointerWrites :
    (block 2 [1] []).trap = .ok ∧ exec (.jmpIf 9) (block 2 [1] []) = .next { block 2 [1] [] with stack := [], ip := 9 } ∧
    exec (.add 0) (block 2 [1] []) = .next (afterTrap .stackUnderflow (block 2 [1] [])) ∧
    (afterTrap .stackUnderflow (block 2 [1] [])).trap ≠ .ok := ⟨by decide, rfl, rfl, by decide⟩
theorem witness_StackPointerLockstep :
    (block 2 [1, 2] []).trap = .ok ∧
    exec (.eq 0) (block 2 [1, 2] []) = .next { block 2 [1, 2] [] with stack := [0], ip := 1 } ∧
    exec (.push 0) (block 2 [1, 2] []) = .next (afterTrap .stackOverflow (block 2 [1, 2] [])) ∧
    (afterTrap .stackOverflow (block 2 [1, 2] [])).trap ≠ .ok := ⟨by decide, rfl, rfl, by decide⟩
/-- Slot 0 is the top while the jump runs and lies just below the two that `Add` takes while `Add` runs. -/
theorem witness_DeepSlotsPersist :
    (0 < (block 8 [9] [.jmp 1, .push 3]).sp ∧ ∀ k, k < 2 →
      0 + popsOfStep (runSteps k (block 8 [9] [.jmp 1, .push 3])) < (runSteps k (block 8 [9] [.jmp 1, .push 3])).sp) ∧
    (0 < (block 8 [9, 2, 3] [.add 0]).sp ∧ ∀ k, k < 2 →
      0 + popsOfStep (runSteps k (block 8 [9, 2, 3] [.add 0])) < (runSteps k (block 8 [9, 2, 3] [.add 0])).sp) := by decide
theorem witness_StepRunsDecodedInstruction :
    (block 2 [] [.add 5]).Running ∧ decode 64 0x010000000000000005#72 = .ok (.add 5) ∧
    (block 2 [] [.add 5]).prog[(block 2 [] [.add 5]).ip]? = some (.add 5) := ⟨by decide, by rfl, by decide⟩
theorem witness_PlacedWordRuns :
    decode (block 2 [] [.halt 0, .halt 1]).cfg.wordBits (wordOfTable (block 2 [] [.halt 0, .halt 1]).cfg.wordBits 72 0x050000000000000005) =
      .ok (.dup 5) ∧ 1 < (block 2 [] [.halt 0, .halt 1]).programSize ∧ 1 ≠ (block 2 [] [.halt 0, .halt 1]).ip :=
  ⟨by rfl, by decide, by decide⟩
theorem witness_TerminalForever :
    ({ block 2 [] [] with halted := true } : State).Terminal ∧ ({ block 2 [] [] with trap := .divideByZero } : State).Terminal := by decide
theorem witness_FailedFetchTraps : (block 2 [] []).Running ∧ (block 2 [] []).programSize ≤ (block 2 [] []).ip := by decide
/-- An array state whose stack array is not zero above `sp`. -/
def arrays : Pseudocode.ArrayState where
  cfg := Config.test
  stack := fun k => k + 5
  sp := 2
  prog := fun _ => .add 0
  programSize := 1
  ip := 0
  halted := false
  trap := .ok
  dbg := []
theorem witness_StepRefinesPseudocode :
    arrays.cfg.jmpIfNotTakenKeeps = true ∧ (Pseudocode.live (Pseudocode.step arrays)).stack = [11] := by decide
theorem witness_TrapsArePrecise :
    (block 2 [5, 0] [.div 0]).trap = .ok ∧
    step (block 2 [5, 0] [.div 0]) = .next (afterTrap .divideByZero (block 2 [5, 0] [.div 0])) ∧
    (afterTrap .divideByZero (block 2 [5, 0] [.div 0])).trap ≠ .ok := ⟨by decide, rfl, by decide⟩
theorem witness_FirstFailingCheckDecides :
    firstFailure (.div 0) (block 2 [0] []) = some .stackUnderflow ∧
    firstFailure (.div 0) (block 2 [0, 0] []) = some .divideByZero ∧
    firstFailure (.dup 2) (block 2 [1, 2] []) = some .illegalInstructionAccess ∧
    firstFailure (.dup 1) (block 2 [1, 2] []) = some .stackOverflow ∧
    firstFailure (.dup 0) (block 2 [1] []) = none := by decide
theorem witness_TrapsPerInstruction :
    ((block 2 [] []).Running ∧ step (block 2 [] []) = .next (afterTrap .illegalInstructionAccess (block 2 [] [])) ∧
      (afterTrap .illegalInstructionAccess (block 2 [] [])).trap ≠ .ok) ∧
    ((block 2 [] [.printTop 0]).Running ∧
      step (block 2 [] [.printTop 0]) = .next (afterTrap .stackUnderflow (block 2 [] [.printTop 0])) ∧
      (afterTrap .stackUnderflow (block 2 [] [.printTop 0])).trap ≠ .ok) :=
  ⟨⟨by decide, rfl, by decide⟩, by decide, rfl, by decide⟩
theorem witness_TrapCodes : Trap.divideByZero.code = Trap.divideByZero.code := rfl
/-- A state that meets the invariants at their bounds: a full stack of top Words and `ip` past a full program store. -/
def brim : State where
  cfg := ⟨8, 2, 1, true⟩
  stack := [255, 255]
  prog := [.jmp 255]
  ip := 0
  halted := false
  trap := .ok
  dbg := [.dump [255, 255]]
theorem brim_wf : brim.Wf := ⟨by decide, by decide, by decide, by decide, by decide, by decide, by decide⟩
theorem brim_reports : brim.ReportsAgree := ⟨fun _ => by decide, fun h => absurd rfl h⟩
theorem witness_StepKeepsWf : brim.Wf ∧ step brim = .next { brim with ip := 255 } :=
  ⟨brim_wf, rfl⟩
theorem witness_StepKeepsReportsAgree :
    brim.ReportsAgree ∧ step brim = .next { brim with ip := 255 } ∧
    (afterTrap .stackOverflow brim).ReportsAgree ∧ step (afterTrap .stackOverflow brim) = .next (afterTrap .stackOverflow brim) :=
  ⟨brim_reports, rfl, ⟨(fun h => by cases h), fun _ => ⟨brim.dbg, rfl, by decide⟩⟩, rfl⟩
theorem witness_ResetMeetsInvariants : Config.test.wf ∧ (⟨1, 1, 1, false⟩ : Config).wf := by decide
theorem witness_HowARunEnds :
    ((block 2 [] [.halt 0]).Running ∧ step (block 2 [] [.halt 0]) = .next { block 2 [] [.halt 0] with halted := true, ip := 1 } ∧
      ({ block 2 [] [.halt 0] with halted := true, ip := 1 } : State).Terminal) ∧
    ((block 2 [] [.printTop 0]).Running ∧
      step (block 2 [] [.printTop 0]) = .next (afterTrap .stackUnderflow (block 2 [] [.printTop 0])) ∧
      (afterTrap .stackUnderflow (block 2 [] [.printTop 0])).Terminal) ∧
    ((block 2 [] []).Running ∧ step (block 2 [] []) = .next (afterTrap .illegalInstructionAccess (block 2 [] [])) ∧
      (afterTrap .illegalInstructionAccess (block 2 [] [])).Terminal) :=
  ⟨⟨by decide, rfl, by decide⟩, ⟨by decide, rfl, by decide⟩, by decide, rfl, by decide⟩
theorem witness_BudgetedRun :
    ((runSteps 1 (block 2 [] [.halt 0])).Terminal ∧ ∀ j, j < 1 → (runSteps j (block 2 [] [.halt 0])).Running) ∧
    ∀ j, j < 3 → (runSteps j (block 2 [] [.jmp 0])).Running := by decide
theorem witness_SelfJumpLoops :
    (block 2 [] [.jmp 0]).Running ∧
    (block 2 [] [.jmp 0]).prog[(block 2 [] [.jmp 0]).ip]? = some (.jmp (block 2 [] [.jmp 0]).ip) := by decide
theorem witness_AppendContract :
    brim.programSize = brim.cfg.programCapacity ∧ (block 2 [] []).programSize ≠ (block 2 [] []).cfg.programCapacity ∧
    0x0B < (opcField (BitVec.ofNat (opcBits + State.reset.cfg.wordBits) 0x0C0000000000000000)).toNat ∧
    (Instr.push topWord).WellFormed State.reset.cfg.wordBits := by decide
theorem witness_AppendRefusedAfterStep :
    (⟨.stepping, brim⟩ : Session).phase = .stepping ∧
    Session.act .stepRequest ⟨.stepping, brim⟩ = .next ⟨.stepping, { brim with ip := 255 }⟩ ∧
    Session.act .reset ⟨.stepping, brim⟩ = .next ⟨.loading, State.resetWith brim.cfg⟩ := ⟨rfl, rfl, rfl⟩
theorem witness_SessionsKeepInvariants :
    brim.Wf ∧ brim.ReportsAgree ∧ (Instr.push 255).WellFormed brim.cfg.wordBits ∧
    (HostAction.append (.push 255)).WellFormed brim.cfg.wordBits ∧
    Session.act (.append (.push 255)) ⟨.loading, brim⟩ = .next ⟨.loading, brim⟩ ∧
    Session.act .stepRequest ⟨.loading, brim⟩ = .next ⟨.stepping, { brim with ip := 255 }⟩ ∧
    (∀ a ∈ [HostAction.readOut], a.WellFormed brim.cfg.wordBits) ∧
    Session.actAll [.readOut] ⟨.stepping, brim⟩ = .next ⟨.stepping, brim⟩ ∧ Config.test.wf := by
  refine ⟨brim_wf, brim_reports, by decide, (by decide : (Instr.push 255).WellFormed brim.cfg.wordBits), rfl, rfl, ?_, rfl, by decide⟩
  intro a ha
  rcases List.mem_singleton.mp ha with rfl
  trivial
theorem witness_ReadOutValues : readOut brim = readOut { brim with dbg := [] } := by decide
theorem witness_BootSequenceRuns :
    (⟨.stepping, brim⟩ : Session).block.cfg = brim.cfg ∧ [Instr.halt 0].length ≤ brim.cfg.programCapacity := by decide

end Sys2Proof.Tests
end

/-!
# The effect of an instruction

What the arm of an instruction other than `Halt` can make of the state, said once: a trap entry, a write of the stack and
of `ip`, or these with one event. Facts that all of these share (the halt flag, the parameters, the program store) follow from it.
-/

namespace Sys2Proof.Machine

/-- The next states an instruction other than `Halt` can have: it traps (R113), or it writes the stack and `ip` (R71, R75, R86,
R87), or it writes the stack, emits an event of its own and advances `ip` (R92, R93). -/
inductive ExecEffect (s : State) : State → Prop where
  | trap (T : Trap) (hT : T ≠ .ok) : ExecEffect s (trapEntry T s)
  | write (st : List Nat) (ip : Nat) : ExecEffect s (setIp ip (setStack st s))
  | event (st : List Nat) (e : Event) (he : e.isReport = false) : ExecEffect s (advance (setStack st (emit e s)))

/-- Every outcome `raise T s` with `T` a fault is one of these effects. -/
theorem raise_effect {T : Trap} (hT : T ≠ .ok) (s : State) : ∃ t, raise T s = .next t ∧ ExecEffect s t :=
  ⟨_, rfl, .trap T hT⟩

theorem pushAdvance_effect (v : Nat) (s : State) : ∃ t, pushAdvance v s = .next t ∧ ExecEffect s t := by
  obtain ⟨-, h⟩ | ⟨-, h⟩ := pushAdvance_cases v s
  · exact h ▸ raise_effect (by decide) s
  · exact ⟨_, h, .write _ _⟩

theorem binary_effect {check : Nat → Option Trap} (hcheck : ∀ b, check b ≠ some .ok) (result : Nat → Nat → Nat) (s : State) :
    ∃ t, binary check result s = .next t ∧ ExecEffect s t := by
  obtain ⟨-, h⟩ | ⟨_, _, b, -, ⟨T, hT, h⟩ | ⟨-, h⟩⟩ := binary_cases check result s
  · exact h ▸ raise_effect (by decide) s
  · have hne : T ≠ .ok := fun hok => hcheck b (hok ▸ hT)
    exact h ▸ raise_effect hne s
  · exact ⟨_, h, .write _ _⟩

theorem noCheck_ne_ok (b : Nat) : noCheck b ≠ some .ok := by simp [noCheck]

theorem divisorCheck_ne_ok (b : Nat) : divisorCheck b ≠ some .ok := by
  unfold divisorCheck
  split <;> simp

theorem execDup_effect (n : Nat) (s : State) : ∃ t, execDup n s = .next t ∧ ExecEffect s t := by
  unfold execDup
  split
  · exact raise_effect (by decide) s
  · split
    · exact raise_effect (by decide) s
    · exact pushAdvance_effect _ s

theorem fallThrough_effect (below : List Nat) (s : State) : ∃ t, fallThrough below s = .next t ∧ ExecEffect s t := by
  unfold fallThrough
  split
  · exact ⟨_, rfl, .write s.stack _⟩
  · exact ⟨_, rfl, .write below _⟩

theorem execJmpIf_effect (target : Nat) (s : State) : ∃ t, execJmpIf target s = .next t ∧ ExecEffect s t := by
  unfold execJmpIf
  split
  · exact raise_effect (by decide) s
  · split
    · exact ⟨_, rfl, .write _ _⟩
    · exact fallThrough_effect _ s

theorem execPrintTop_effect (s : State) : ∃ t, execPrintTop s = .next t ∧ ExecEffect s t := by
  unfold execPrintTop
  split
  · exact raise_effect (by decide) s
  · exact ⟨_, rfl, .event _ _ rfl⟩

/-- Every instruction but `Halt` has a next state, of one of the three forms. -/
theorem exec_effect {i : Instr} (hi : i.opcode ≠ .halt) (s : State) : ∃ t, exec i s = .next t ∧ ExecEffect s t := by
  cases i with
  | push v => exact pushAdvance_effect v s
  | add _ => exact binary_effect noCheck_ne_ok _ s
  | sub _ => exact binary_effect noCheck_ne_ok _ s
  | mul _ => exact binary_effect noCheck_ne_ok _ s
  | div _ => exact binary_effect divisorCheck_ne_ok _ s
  | dup n => exact execDup_effect n s
  | eq _ => exact binary_effect noCheck_ne_ok _ s
  | jmp target => exact ⟨_, rfl, .write s.stack target⟩
  | jmpIf target => exact execJmpIf_effect target s
  | halt _ => exact absurd rfl hi
  | dumpStack _ => exact ⟨_, rfl, .event s.stack _ rfl⟩
  | printTop _ => exact execPrintTop_effect s

/-- `exec_effect` for a next state already at hand. -/
theorem effect_of_exec {i : Instr} {s t : State} (hi : i.opcode ≠ .halt) (h : exec i s = .next t) : ExecEffect s t := by
  obtain ⟨t', h', he⟩ := exec_effect hi s
  obtain rfl : t = t' := Host.Outcome.next.inj (h.symm.trans h')
  exact he

theorem opcode_eq_halt_iff (i : Instr) : i.opcode = .halt ↔ ∃ u, i = .halt u := by
  cases i <;> simp [Instr.opcode]

theorem exec_halt (u : Nat) (s : State) : exec (.halt u) s = .next (advance (setHalted s)) := rfl

end Sys2Proof.Machine

/-!
# The state elements

The obligations of spec/10_state.md: the halt flag (R24) and the reset values (R30).
-/

namespace Sys2Proof.Machine

theorem ExecEffect.halted_eq {s t : State} (h : ExecEffect s t) : t.halted = s.halted := by
  cases h <;> rfl

/-- The halt flag after an instruction (R24). -/
theorem exec_halted_iff {i : Instr} {s t : State} (h : exec i s = .next t) :
    t.halted = true ↔ s.halted = true ∨ i.opcode = .halt := by
  by_cases hi : i.opcode = .halt
  · obtain ⟨u, rfl⟩ := (opcode_eq_halt_iff i).mp hi
    obtain rfl : advance (setHalted s) = t := Host.Outcome.next.inj ((exec_halt u s).symm.trans h)
    simp [hi]
  · simp [(effect_of_exec hi h).halted_eq, hi]

/-- No step is taken once the halt flag is set (R60). -/
theorem step_of_halted {s : State} (h : s.halted = true) : step s = .next s := by
  simp [step, (running_eq_false_iff s).mpr (.inl h)]

/-- Of the three cases of a step only the fetched instruction's effect can write the halt flag, and only from 0 (R24). -/
theorem step_halted_ne {s t : State} (h : step s = .next t) (hne : t.halted ≠ s.halted) :
    (∃ u, fetch s = some (.halt u)) ∧ s.halted = false ∧ t.halted = true := by
  obtain ⟨-, hs⟩ | ⟨-, -, hs⟩ | ⟨i, hr, hf, hs⟩ := step_cases s
  · obtain rfl : s = t := Host.Outcome.next.inj (hs.symm.trans h)
    exact absurd rfl hne
  · obtain rfl := (raise_eq_next_iff _ s t).mp (hs.symm.trans h)
    exact absurd (trapEntry_halted s _) hne
  · have hs0 : s.halted = false := ((running_eq_true_iff s).mp hr).1
    have ht1 : t.halted = true := by simpa [hs0] using hne
    have hi : i.opcode = .halt := by simpa [hs0, ht1] using exec_halted_iff (hs.symm.trans h)
    obtain ⟨u, rfl⟩ := (opcode_eq_halt_iff i).mp hi
    exact ⟨⟨u, hf⟩, hs0, ht1⟩

/-- After reset the engine is Running, whatever its parameters (R12, R30). -/
theorem resetWith_running (c : Config) : (State.resetWith c).Running := ⟨rfl, rfl⟩

/-- Settles O28: an instruction other than `Halt` keeps the flag (`ExecEffect.halted_eq`), and no other case of a step writes it. -/
theorem haltedOnlyByHalt : Obligations.HaltedOnlyByHalt :=
  ⟨fun _ _ => step_halted_ne, fun _ _ _ => exec_halted_iff, fun _ => step_of_halted, fun _ => rfl, rfl⟩

/-- Settles O51: the reset state is a literal whose fields are R30's values, and both resets are this state. -/
theorem resetValues : Obligations.ResetValues :=
  ⟨fun c => ⟨rfl, rfl, rfl, rfl, rfl, rfl, resetWith_running c⟩, fun _ => rfl, Config.test, rfl⟩

end Sys2Proof.Machine

/-!
# The encoding

The obligation of spec/30_encoding.md R49. A word is its two fields put together (`packWord_fields`), so the mask and the match of
R49 are words of the same shape, and a bitwise "and" works on each field by itself.
-/

namespace Sys2Proof

@[simp] theorem Instr.opcode_ofPair (o : Opcode) (v : Nat) : (Instr.ofPair o v).opcode = o := by
  cases o <;> rfl

/-- `opcode_of` reads the number of every opcode back (R54). -/
@[simp] theorem opcodeOf_number (o : Opcode) : opcodeOf o.number = some o := by
  cases o <;> rfl

/-- `opcode_of` selects an opcode on its number alone (R50). -/
theorem opcodeOf_eq_some_iff (b : BitVec opcBits) (o : Opcode) : opcodeOf b = some o ↔ b = o.number := by
  constructor
  · intro h
    unfold opcodeOf at h
    split at h <;> cases h <;> exact BitVec.eq_of_toNat_eq ‹_›
  · rintro rfl
    exact opcodeOf_number o

/-- The decoder's answer on a word: the opcode its `opc` field selects, with its operand field (R54). -/
theorem decode_eq_ok_iff (W : Nat) (w : InstrWord W) (i : Instr) :
    decode W w = .ok i ↔ ∃ o, opcodeOf (opcField w) = some o ∧ Instr.ofPair o (operandField w) = i := by
  unfold decode
  cases opcodeOf (opcField w) <;> simp

/-- The decoder selects the opcode whose number stands in the `opc` field. -/
theorem exists_decode_eq_ofPair_iff (W : Nat) (w : InstrWord W) (o : Opcode) :
    (∃ v, decode W w = .ok (Instr.ofPair o v)) ↔ opcField w = o.number := by
  simp only [decode_eq_ok_iff, opcodeOf_eq_some_iff]
  constructor
  · rintro ⟨v, o', hfield, hpair⟩
    obtain rfl : o' = o := by simpa using congrArg Instr.opcode hpair
    exact hfield
  · intro hfield
    exact ⟨operandField w, o, hfield, rfl⟩

/-- `opc << W` is the word with this `opc` field and the operand zero (R46, R49). -/
theorem ofNat_shiftLeft_eq_packWord (W : Nat) (b : BitVec opcBits) :
    BitVec.ofNat (opcBits + W) b.toNat <<< W = packWord W b 0 := by
  have hlt : b.toNat * 2 ^ W < 2 ^ (opcBits + W) := by
    rw [Nat.pow_add]
    exact Nat.mul_lt_mul_of_pos_right b.isLt (Nat.two_pow_pos W)
  apply BitVec.eq_of_toNat_eq
  simp [packWord, BitVec.toNat_append, Nat.shiftLeft_eq, Nat.mod_eq_of_lt hlt]

/-- The mask `0xFF << W` keeps the `opc` field and clears the operand (R49). -/
theorem and_opcMask (W : Nat) (w : InstrWord W) :
    w &&& (BitVec.ofNat (opcBits + W) 0xFF <<< W) = packWord W (opcField w) 0 := by
  have hmask : BitVec.ofNat (opcBits + W) 0xFF <<< W = packWord W 0xFF#8 0 := ofNat_shiftLeft_eq_packWord W 0xFF#8
  have hones : opcField w &&& 0xFF#8 = opcField w := BitVec.and_allOnes
  calc w &&& (BitVec.ofNat (opcBits + W) 0xFF <<< W)
      = packWord W (opcField w) (operandField w) &&& packWord W 0xFF#8 0 := by rw [packWord_fields, hmask]
    _ = packWord W (opcField w &&& 0xFF#8) 0 := by simp [packWord, BitVec.and_append]
    _ = packWord W (opcField w) 0 := by rw [hones]

/-- Words with the same operand are equal exactly when their `opc` fields are. -/
theorem packWord_left_inj (W : Nat) (a b : BitVec opcBits) (v : Nat) : packWord W a v = packWord W b v ↔ a = b := by
  constructor
  · intro h
    simpa only [opcField_packWord] using congrArg opcField h
  · rintro rfl
    rfl

/-- Settles O4: both sides of R49's test are words with operand zero, so it compares the `opc` field with the opcode's number,
which is what the decoder does. -/
theorem maskAndMatchSelect : Obligations.MaskAndMatchSelect := by
  intro W w o
  rw [exists_decode_eq_ofPair_iff, and_opcMask, ofNat_shiftLeft_eq_packWord, packWord_left_inj]

end Sys2Proof

/-!
# The arms as equations

What an instruction that reads the stack does, by the form of the stack: an equation a case, so that the proofs below split on
the stack and never on an arm's own matches.
-/

namespace Sys2Proof.Machine

section

variable {s : State}

theorem binary_of_sp_lt_two (check : Nat → Option Trap) (result : Nat → Nat → Nat) (h : s.sp < 2) :
    binary check result s = raise .stackUnderflow s := by
  simp [binary, (takeTopTwo_eq_none_iff s.stack).mpr h]

theorem binary_of_check_some {check : Nat → Option Trap} (result : Nat → Nat → Nat) {below : List Nat} {a b : Nat} {T : Trap}
    (h : s.stack = below ++ [a, b]) (hcheck : check b = some T) : binary check result s = raise T s := by
  simp [binary, h, takeTopTwo_append, hcheck]

theorem binary_of_check_none {check : Nat → Option Trap} (result : Nat → Nat → Nat) {below : List Nat} {a b : Nat}
    (h : s.stack = below ++ [a, b]) (hcheck : check b = none) :
    binary check result s = .next (advance (setStack (below ++ [result a b]) s)) := by
  simp [binary, h, takeTopTwo_append, hcheck]

theorem execDup_of_sp_eq_zero (n : Nat) (h : s.sp = 0) : execDup n s = raise .stackUnderflow s := by
  simp [execDup, h]

theorem execDup_of_sp_le {n : Nat} (h0 : s.sp ≠ 0) (h : s.sp ≤ n) : execDup n s = raise .illegalInstructionAccess s := by
  simp [execDup, h0, (slot_eq_none_iff s.stack n).mpr h]

theorem execDup_of_getElem?_eq_some {n v : Nat} (h : s.stack[n]? = some v) : execDup n s = pushAdvance v s := by
  have h0 : s.sp ≠ 0 := Nat.ne_zero_of_lt (List.getElem?_eq_some_iff.mp h).1
  simp [execDup, h0, slot, h]

theorem execJmpIf_of_stack_eq_nil (target : Nat) (h : s.stack = []) : execJmpIf target s = raise .stackUnderflow s := by
  simp [execJmpIf, (takeTop_eq_none_iff s.stack).mpr h]

theorem execJmpIf_of_top_eq_one (target : Nat) {below : List Nat} (h : s.stack = below ++ [1]) :
    execJmpIf target s = .next (setIp target (setStack below s)) := by
  simp [execJmpIf, h, takeTop_append, conditionHolds]

theorem execJmpIf_of_top_ne_one (target : Nat) {below : List Nat} {a : Nat} (h : s.stack = below ++ [a]) (ha : a ≠ 1) :
    execJmpIf target s = fallThrough below s := by
  simp [execJmpIf, h, takeTop_append, conditionHolds, ha]

theorem execPrintTop_of_stack_eq_nil (h : s.stack = []) : execPrintTop s = raise .stackUnderflow s := by
  simp [execPrintTop, (takeTop_eq_none_iff s.stack).mpr h]

theorem execPrintTop_of_stack_eq_append {below : List Nat} {a : Nat} (h : s.stack = below ++ [a]) :
    execPrintTop s = .next (advance (setStack below (emit (.print s.stack) s))) := by
  simp [execPrintTop, h, takeTop_append, snapshot]

theorem topIsOne_iff {below : List Nat} {a : Nat} (h : s.stack = below ++ [a]) : topIsOne s ↔ a = 1 := by
  simp [topIsOne, State.sp, h]

end

end Sys2Proof.Machine

/-!
# The step function R66

The model's step and the transcribed one commute with `live`. What a write does to the live slots is said once; then each shared
part of the arms (trap, push, the binary form) has its commuting square, and the arms are put together from these.
-/

namespace Sys2Proof.Machine.Pseudocode

/-- The slots `0 .. n - 1` of a stack array; `snapshot` is `slots x.stack x.sp`. -/
def slots (stack : Nat → Nat) (n : Nat) : List Nat := (List.range n).map stack

theorem slots_succ (stack : Nat → Nat) (n : Nat) : slots stack (n + 1) = slots stack n ++ [stack n] := by
  simp [slots, List.range_succ]

/-- A write at `n` is not seen below `n`. -/
theorem slots_write (stack : Nat → Nat) (n v : Nat) : slots (write stack n v) n = slots stack n := by
  refine List.map_congr_left fun k hk => ?_
  have hkn : k ≠ n := Nat.ne_of_lt (List.mem_range.mp hk)
  simp [write, hkn]

theorem slots_succ_write (stack : Nat → Nat) (n v : Nat) : slots (write stack n v) (n + 1) = slots stack n ++ [v] := by
  rw [slots_succ, slots_write]
  simp [write]

section

variable {x : ArrayState}

@[simp] theorem live_cfg (x : ArrayState) : (live x).cfg = x.cfg := rfl

theorem live_stack (x : ArrayState) : (live x).stack = slots x.stack x.sp := rfl

@[simp] theorem live_sp (x : ArrayState) : (live x).sp = x.sp := by
  simp [State.sp, live_stack, slots]

theorem live_stack_eq_nil (h : x.sp = 0) : (live x).stack = [] := by
  simp [live_stack, h, slots]

theorem live_stack_eq_append (h : x.sp ≠ 0) :
    (live x).stack = slots x.stack (x.sp - 1) ++ [x.stack (x.sp - 1)] := by
  rw [← slots_succ, Nat.sub_add_cancel (Nat.pos_of_ne_zero h), live_stack]

theorem live_stack_eq_append_two (h : 2 ≤ x.sp) :
    (live x).stack = slots x.stack (x.sp - 2) ++ [x.stack (x.sp - 2), x.stack (x.sp - 1)] := by
  have hsp : x.sp - 1 = x.sp - 2 + 1 := by omega
  rw [live_stack_eq_append (by omega), hsp, slots_succ, List.append_assoc]
  rfl

theorem live_stack_getElem? {n : Nat} (h : n < x.sp) : (live x).stack[n]? = some (x.stack n) := by
  simp [live_stack, slots, h]

theorem fetch_live_eq_none (h : x.programSize ≤ x.ip) : fetch (live x) = none := by
  simp [fetch, live, h]

theorem fetch_live_eq_some (h : x.ip < x.programSize) : fetch (live x) = some (x.prog x.ip) := by
  simp [fetch, live, h]

/-- Running is read off the halt flag and the trap register, which both machines hold alike. -/
theorem running_live_eq_false_iff (x : ArrayState) : running (live x) = false ↔ x.halted = true ∨ x.trap ≠ .ok :=
  running_eq_false_iff (live x)

theorem raise_live (T : Trap) (x : ArrayState) : Machine.raise T (live x) = .next (live (raise T x)) := rfl

/-- The part that Push and Dup of R66 have in common: the capacity check, then the write of `v` above the top. -/
def pushArm (v : Nat) (x : ArrayState) : ArrayState :=
  if x.sp = x.cfg.stackCapacity then raise .stackOverflow x
  else { x with stack := write x.stack x.sp v, sp := x.sp + 1, ip := x.ip + 1 }

theorem pushAdvance_live (v : Nat) (x : ArrayState) : pushAdvance v (live x) = .next (live (pushArm v x)) := by
  unfold pushArm
  obtain ⟨hfull, h⟩ | ⟨hroom, h⟩ := pushAdvance_cases v (live x) <;> rw [live_sp, live_cfg] at *
  · rw [h, if_pos hfull, raise_live]
  · rw [h, if_neg hroom, live_stack, ← slots_succ_write]
    rfl

theorem live_replaceTopTwo (r : Nat) (h : 2 ≤ x.sp) :
    live (replaceTopTwo r x) = advance (setStack (slots x.stack (x.sp - 2) ++ [r]) (live x)) := by
  have hsp : x.sp - 2 + 1 = x.sp - 1 := by omega
  rw [← slots_succ_write, hsp]
  rfl

/-- The form that Add, Sub, Mul, Div and Eq of R66 have in common. -/
def binaryArm (check : Nat → Option Trap) (result : Nat → Nat → Nat) (x : ArrayState) : ArrayState :=
  if x.sp < 2 then raise .stackUnderflow x
  else
    match check (x.stack (x.sp - 1)) with
    | some T => raise T x
    | none => replaceTopTwo (result (x.stack (x.sp - 2)) (x.stack (x.sp - 1))) x

theorem arm_div_eq_binaryArm (u : Nat) (x : ArrayState) : arm (.div u) x = binaryArm divisorCheck divResult x := by
  by_cases hb : x.stack (x.sp - 1) = 0 <;> simp [arm, binaryArm, divisorCheck, divResult, hb]

theorem binary_live (check : Nat → Option Trap) (result : Nat → Nat → Nat) (x : ArrayState) :
    binary check result (live x) = .next (live (binaryArm check result x)) := by
  unfold binaryArm
  by_cases h : x.sp < 2
  · rw [if_pos h, binary_of_sp_lt_two check result ((live_sp x).symm ▸ h), raise_live]
  · have hstack := live_stack_eq_append_two (Nat.not_lt.mp h)
    rw [if_neg h]
    cases hcheck : check (x.stack (x.sp - 1)) with
    | some T => exact binary_of_check_some result hstack hcheck
    | none => rw [binary_of_check_none result hstack hcheck, live_replaceTopTwo _ (Nat.not_lt.mp h)]

theorem arm_dup_eq_pushArm (n : Nat) (x : ArrayState) :
    arm (.dup n) x =
      if x.sp = 0 then raise .stackUnderflow x
      else if n ≥ x.sp then raise .illegalInstructionAccess x
      else pushArm (x.stack n) x := rfl

theorem execDup_live (n : Nat) (x : ArrayState) : execDup n (live x) = .next (live (arm (.dup n) x)) := by
  rw [arm_dup_eq_pushArm]
  by_cases h0 : x.sp = 0
  · rw [if_pos h0, execDup_of_sp_eq_zero n (by simpa using h0), raise_live]
  · rw [if_neg h0]
    by_cases hn : x.sp ≤ n
    · rw [if_pos hn, execDup_of_sp_le (by simpa using h0) (by simpa using hn), raise_live]
    · rw [if_neg hn, execDup_of_getElem?_eq_some (live_stack_getElem? (Nat.not_le.mp hn)), pushAdvance_live]

theorem execJmpIf_live (target : Nat) (hkeep : x.cfg.jmpIfNotTakenKeeps = true) :
    execJmpIf target (live x) = .next (live (arm (.jmpIf target) x)) := by
  by_cases h0 : x.sp = 0
  · rw [execJmpIf_of_stack_eq_nil target (live_stack_eq_nil h0), raise_live]
    simp [arm, h0]
  · have hstack := live_stack_eq_append h0
    by_cases ha : x.stack (x.sp - 1) = 1
    · rw [execJmpIf_of_top_eq_one target (ha ▸ hstack)]
      simp only [arm, if_neg h0, if_pos ha]
      rfl
    · have hfall : fallThrough (slots x.stack (x.sp - 1)) (live x) = .next (advance (live x)) := if_pos hkeep
      rw [execJmpIf_of_top_ne_one target hstack ha, hfall]
      simp only [arm, if_neg h0, if_neg ha]
      rfl

theorem execPrintTop_live (u : Nat) (x : ArrayState) : execPrintTop (live x) = .next (live (arm (.printTop u) x)) := by
  by_cases h0 : x.sp = 0
  · rw [execPrintTop_of_stack_eq_nil (live_stack_eq_nil h0), raise_live]
    simp [arm, h0]
  · rw [execPrintTop_of_stack_eq_append (live_stack_eq_append h0)]
    simp only [arm, if_neg h0]
    rfl

/-- The commuting square of the dispatch: the live part of every arm of R66 is the model's arm on the live part. -/
theorem exec_live (i : Instr) (hkeep : x.cfg.jmpIfNotTakenKeeps = true) : exec i (live x) = .next (live (arm i x)) := by
  cases i with
  | push v => exact pushAdvance_live v x
  | add _ => exact binary_live noCheck (addResult x.cfg.wordBits) x
  | sub _ => exact binary_live noCheck (subResult x.cfg.wordBits) x
  | mul _ => exact binary_live noCheck (mulResult x.cfg.wordBits) x
  | div u => exact arm_div_eq_binaryArm u x ▸ binary_live divisorCheck divResult x
  | dup n => exact execDup_live n x
  | eq _ => exact binary_live noCheck eqResult x
  | jmp _ => rfl
  | jmpIf target => exact execJmpIf_live target hkeep
  | halt _ => rfl
  | dumpStack _ => rfl
  | printTop u => exact execPrintTop_live u x

theorem step_live (hkeep : x.cfg.jmpIfNotTakenKeeps = true) : Machine.step (live x) = .next (live (step x)) := by
  unfold step Machine.step
  by_cases hterm : x.halted = true ∨ x.trap ≠ .ok
  · simp [(running_live_eq_false_iff x).mpr hterm, if_pos hterm]
  · have hrun : running (live x) = true := by
      simpa using mt (running_live_eq_false_iff x).mp hterm
    rw [if_pos hrun, if_neg hterm]
    by_cases hip : x.programSize ≤ x.ip
    · rw [fetch_live_eq_none hip, if_pos hip]
      exact raise_live _ x
    · rw [fetch_live_eq_some (Nat.not_le.mp hip), if_neg hip]
      exact exec_live _ hkeep

end

/-- Settles O37: a terminal state is kept, a failed fetch traps, and otherwise the arms commute with `live` (`exec_live`). -/
theorem stepRefinesPseudocode : Obligations.StepRefinesPseudocode := fun _ => step_live

end Sys2Proof.Machine.Pseudocode

/-!
# The instruction pointer

R63 for the twelve instructions, from what a push, a binary instruction and each of the other arms do to `ip` and to `trap`.
-/

namespace Sys2Proof.Machine

/-- An outcome that is a trap entry, or a next state with the trap register as before and `ip` at `n` (R63). -/
inductive TrapsOrMovesTo (n : Nat) (s : State) : Host.Outcome State Fault Refusal → Prop where
  | trap (T : Trap) (hT : T ≠ .ok) : TrapsOrMovesTo n s (raise T s)
  | completes (t : State) (htrap : t.trap = s.trap) (hip : t.ip = n) : TrapsOrMovesTo n s (.next t)

theorem TrapsOrMovesTo.ip_of_next {n : Nat} {s t : State} (h : TrapsOrMovesTo n s (.next t)) (hs : s.trap = .ok) :
    (t.trap = .ok → t.ip = n) ∧ (t.trap ≠ .ok → t.ip = s.ip) := by
  generalize ho : Host.Outcome.next t = o at h
  cases h with
  | trap T hT =>
    obtain rfl := (raise_eq_next_iff T s t).mp ho.symm
    exact ⟨fun hok => absurd hok hT, fun _ => rfl⟩
  | completes t' htrap hip =>
    obtain rfl := Host.Outcome.next.inj ho
    exact ⟨fun _ => hip, fun hne => absurd (htrap.trans hs) hne⟩

theorem pushAdvance_movesTo (v : Nat) (s : State) : TrapsOrMovesTo (s.ip + 1) s (pushAdvance v s) := by
  obtain ⟨-, h⟩ | ⟨-, h⟩ := pushAdvance_cases v s
  · exact h ▸ .trap _ (by decide)
  · exact h ▸ .completes _ rfl rfl

theorem binary_movesTo {check : Nat → Option Trap} (hcheck : ∀ b, check b ≠ some .ok) (result : Nat → Nat → Nat) (s : State) :
    TrapsOrMovesTo (s.ip + 1) s (binary check result s) := by
  obtain ⟨-, h⟩ | ⟨_, _, b, -, ⟨T, hT, h⟩ | ⟨-, h⟩⟩ := binary_cases check result s
  · exact h ▸ .trap _ (by decide)
  · exact h ▸ .trap T fun hok => hcheck b (hok ▸ hT)
  · exact h ▸ .completes _ rfl rfl

theorem execDup_movesTo (n : Nat) (s : State) : TrapsOrMovesTo (s.ip + 1) s (execDup n s) := by
  by_cases h0 : s.sp = 0
  · exact execDup_of_sp_eq_zero n h0 ▸ .trap _ (by decide)
  · cases hn : s.stack[n]? with
    | none => exact execDup_of_sp_le h0 (List.getElem?_eq_none_iff.mp hn) ▸ .trap _ (by decide)
    | some v => exact execDup_of_getElem?_eq_some hn ▸ pushAdvance_movesTo v s

/-- Both readings of a not-taken `JmpIf` (R87, R88) advance. -/
theorem fallThrough_movesTo (below : List Nat) (s : State) : TrapsOrMovesTo (s.ip + 1) s (fallThrough below s) := by
  unfold fallThrough
  split
  · exact .completes _ rfl rfl
  · exact .completes _ rfl rfl

theorem execJmpIf_movesTo (target : Nat) (s : State) :
    TrapsOrMovesTo (if topIsOne s then target else s.ip + 1) s (execJmpIf target s) := by
  obtain h | ⟨below, a, h⟩ := List.eq_nil_or_concat' s.stack
  · exact execJmpIf_of_stack_eq_nil target h ▸ .trap _ (by decide)
  · by_cases ha : a = 1
    · rw [if_pos ((topIsOne_iff h).mpr ha), execJmpIf_of_top_eq_one target (ha ▸ h)]
      exact .completes _ rfl rfl
    · rw [if_neg (mt (topIsOne_iff h).mp ha), execJmpIf_of_top_ne_one target h ha]
      exact fallThrough_movesTo below s

theorem execPrintTop_movesTo (s : State) : TrapsOrMovesTo (s.ip + 1) s (execPrintTop s) := by
  obtain h | ⟨below, a, h⟩ := List.eq_nil_or_concat' s.stack
  · exact execPrintTop_of_stack_eq_nil h ▸ .trap _ (by decide)
  · exact execPrintTop_of_stack_eq_append h ▸ .completes _ rfl rfl

theorem exec_movesTo (i : Instr) (s : State) : TrapsOrMovesTo (ipAfter i s) s (exec i s) := by
  cases i with
  | push v => exact pushAdvance_movesTo v s
  | add _ => exact binary_movesTo noCheck_ne_ok _ s
  | sub _ => exact binary_movesTo noCheck_ne_ok _ s
  | mul _ => exact binary_movesTo noCheck_ne_ok _ s
  | div _ => exact binary_movesTo divisorCheck_ne_ok _ s
  | dup n => exact execDup_movesTo n s
  | eq _ => exact binary_movesTo noCheck_ne_ok _ s
  | jmp _ => exact .completes _ rfl rfl
  | jmpIf target => exact execJmpIf_movesTo target s
  | halt _ => exact .completes _ rfl rfl
  | dumpStack _ => exact .completes _ rfl rfl
  | printTop _ => exact execPrintTop_movesTo s

/-- Settles O29: every arm traps with `ip` untouched or completes at `ipAfter` (`exec_movesTo`). -/
theorem instructionPointerWrites : Obligations.InstructionPointerWrites := by
  intro i s t hs h
  have hmoves : TrapsOrMovesTo (ipAfter i s) s (.next t) := h ▸ exec_movesTo i s
  exact hmoves.ip_of_next hs

end Sys2Proof.Machine

/-!
# Push and Dup

The obligations of spec/41_stack_ops.md R71 and R72. A push by the room it finds is an equation a case; `Push` and `Dup` then have
only two kinds of outcome, a trap entry or a completed push, and R71's frame is read off the second.
-/

namespace Sys2Proof.Machine

section

variable {s : State}

theorem pushAdvance_of_full (v : Nat) (h : s.sp = s.cfg.stackCapacity) : pushAdvance v s = raise .stackOverflow s :=
  if_pos h

theorem pushAdvance_of_room (v : Nat) (h : s.sp ≠ s.cfg.stackCapacity) :
    pushAdvance v s = .next (advance (setStack (s.stack ++ [v]) s)) :=
  if_neg h

end

/-- Settles O7: `Push` is a push of its operand, which completes with room on the stack and overflows without. -/
theorem pushResult : Obligations.PushResult :=
  fun _ v => ⟨rfl, pushAdvance_of_room v, pushAdvance_of_full v⟩

/-- The outcomes of `Push` and `Dup` (R71): a trap entry, or one Word more on a stack that was not full, and `ip` advanced. -/
inductive TrapsOrPushes (s : State) : Host.Outcome State Fault Refusal → Prop where
  | trap (T : Trap) (hT : T ≠ .ok) : TrapsOrPushes s (raise T s)
  | pushes (v : Nat) (hroom : s.sp ≠ s.cfg.stackCapacity) :
    TrapsOrPushes s (.next (advance (setStack (s.stack ++ [v]) s)))

theorem pushAdvance_trapsOrPushes (v : Nat) (s : State) : TrapsOrPushes s (pushAdvance v s) := by
  by_cases h : s.sp = s.cfg.stackCapacity
  · exact pushAdvance_of_full v h ▸ .trap _ (by decide)
  · exact pushAdvance_of_room v h ▸ .pushes v h

/-- `Dup` fails its check of arity or of the index, or pushes the Word it finds (R73). -/
theorem execDup_trapsOrPushes (n : Nat) (s : State) : TrapsOrPushes s (execDup n s) := by
  by_cases h0 : s.sp = 0
  · exact execDup_of_sp_eq_zero n h0 ▸ .trap _ (by decide)
  · cases hn : s.stack[n]? with
    | none => exact execDup_of_sp_le h0 (List.getElem?_eq_none_iff.mp hn) ▸ .trap _ (by decide)
    | some v => exact execDup_of_getElem?_eq_some hn ▸ pushAdvance_trapsOrPushes v s

/-- R71 for a next state: what the two kinds of outcome leave. -/
theorem TrapsOrPushes.frame_of_next {s t : State} (h : TrapsOrPushes s (.next t)) :
    (∃ T : Trap, T ≠ .ok ∧ t = afterTrap T s) ∨
    (s.sp ≠ s.cfg.stackCapacity ∧ t.sp = s.sp + 1 ∧ (∀ n, n < s.sp → t.stack[n]? = s.stack[n]?) ∧ t.ip = s.ip + 1 ∧
      t.halted = s.halted ∧ t.trap = s.trap ∧ t.dbg = s.dbg ∧ t.prog = s.prog ∧ t.cfg = s.cfg) := by
  generalize ho : Host.Outcome.next t = o at h
  cases h with
  | trap T hT => exact .inl ⟨T, hT, (raise_eq_next_iff T s t).mp ho.symm⟩
  | pushes v hroom =>
    obtain rfl := Host.Outcome.next.inj ho
    have hsp : (s.stack ++ [v]).length = s.sp + 1 := List.length_append
    have hlower : ∀ n, n < s.sp → (s.stack ++ [v])[n]? = s.stack[n]? := fun _ => List.getElem?_append_left
    exact .inr ⟨hroom, hsp, hlower, rfl, rfl, rfl, rfl, rfl, rfl⟩

/-- Settles O24: both instructions trap or complete a push (`TrapsOrPushes`), and either outcome has R71's frame. -/
theorem frameOfPushAndDup : Obligations.FrameOfPushAndDup := by
  rintro _ s t ⟨v, rfl | rfl⟩ h
  · have hpush : TrapsOrPushes s (.next t) := h ▸ pushAdvance_trapsOrPushes v s
    exact hpush.frame_of_next
  · have hdup : TrapsOrPushes s (.next t) := h ▸ execDup_trapsOrPushes v s
    exact hdup.frame_of_next

end Sys2Proof.Machine

/-!
# Add, Sub, Mul, Div, Eq

The obligations of spec/42_arithmetic.md R75 to R81 and R83. The results are the equations of the shared form `binary` at each
instruction's own check and result function; the frame is proved once, of `binary`, and holds of the five because each is `binary`.
-/

namespace Sys2Proof.Machine

/-- The operand field of an opcode that takes none plays no role (R48). -/
theorem exec_canonical (i : Instr) (s : State) : exec (canonical i) s = exec i s := by
  cases i <;> rfl

/-- Both outcomes of a binary instruction without a check of its own: by R75 only the arity check can stop it. -/
theorem binary_noCheck (result : Nat → Nat → Nat) (s : State) :
    (∀ below a b, s.stack = below ++ [a, b] →
      binary noCheck result s = .next (advance (setStack (below ++ [result a b]) s))) ∧
    (s.sp < 2 → binary noCheck result s = raise .stackUnderflow s) :=
  ⟨fun _ _ _ h => binary_of_check_none result h rfl, binary_of_sp_lt_two noCheck result⟩

theorem divisorCheck_eq_some_iff (b : Nat) (T : Trap) : divisorCheck b = some T ↔ b = 0 ∧ T = .divideByZero := by
  simp [divisorCheck, eq_comm]

section

variable {s t : State} {below : List Nat} {a b : Nat}

theorem execDiv_of_ne_zero (h : s.stack = below ++ [a, b]) (hb : b ≠ 0) :
    execDiv s = .next (advance (setStack (below ++ [a / b]) s)) :=
  binary_of_check_none divResult h (if_neg hb)

theorem execDiv_of_zero (h : s.stack = below ++ [a, 0]) : execDiv s = raise .divideByZero s :=
  binary_of_check_some divResult h rfl

/-- R75 for a completed binary instruction: one element less, the slots below the top two and all else but `ip` as before. -/
def ReplacesTopTwo (s t : State) : Prop :=
  t.sp + 1 = s.sp ∧ (∀ n, n < s.sp - 2 → t.stack[n]? = s.stack[n]?) ∧ t.ip = s.ip + 1 ∧
    t.halted = s.halted ∧ t.trap = s.trap ∧ t.dbg = s.dbg ∧ t.prog = s.prog ∧ t.cfg = s.cfg

theorem replacesTopTwo_of_stack (r : Nat) (h : s.stack = below ++ [a, b]) :
    ReplacesTopTwo s (advance (setStack (below ++ [r]) s)) := by
  have hsp : s.sp = below.length + 2 := by simp [State.sp, h]
  have hlower : ∀ n, n < s.sp - 2 → (below ++ [r])[n]? = s.stack[n]? := fun n hn => by
    have hn' : n < below.length := by omega
    rw [h, List.getElem?_append_left hn', List.getElem?_append_left hn']
  exact ⟨by simp [hsp], hlower, rfl, rfl, rfl, rfl, rfl, rfl⟩

/-- With its two operands there, a binary instruction traps on its check of the top or replaces the top two. -/
theorem binary_frame_of_next {check : Nat → Option Trap} {result : Nat → Nat → Nat} (h2 : 2 ≤ s.sp)
    (h : binary check result s = .next t) :
    (∃ b T, s.stack[s.sp - 1]? = some b ∧ check b = some T ∧ t = afterTrap T s) ∨ ReplacesTopTwo s t := by
  obtain ⟨below, a, b, hst⟩ := exists_append_two h2
  cases hcheck : check b with
  | some T =>
    rw [binary_of_check_some result hst hcheck, raise_eq_next_iff] at h
    have htop : s.stack[s.sp - 1]? = some b := by simp [State.sp, hst]
    exact .inl ⟨b, T, htop, hcheck, h⟩
  | none =>
    rw [binary_of_check_none result hst hcheck] at h
    obtain rfl := Host.Outcome.next.inj h
    exact .inr (replacesTopTwo_of_stack _ hst)

end

/-- Each of the five is the shared form, and a check that can fail is that of `Div`, on a zero divisor. -/
theorem exec_eq_binary {i : Instr} (hi : ∃ u, i = .add u ∨ i = .sub u ∨ i = .mul u ∨ i = .div u ∨ i = .eq u) (s : State) :
    ∃ check result, exec i s = binary check result s ∧
      ∀ b T, check b = some T → i.opcode = .div ∧ b = 0 ∧ T = .divideByZero := by
  obtain ⟨u, rfl | rfl | rfl | rfl | rfl⟩ := hi
  · exact ⟨noCheck, addResult s.cfg.wordBits, rfl, nofun⟩
  · exact ⟨noCheck, subResult s.cfg.wordBits, rfl, nofun⟩
  · exact ⟨noCheck, mulResult s.cfg.wordBits, rfl, nofun⟩
  · exact ⟨divisorCheck, divResult, rfl, fun b T h => ⟨rfl, (divisorCheck_eq_some_iff b T).mp h⟩⟩
  · exact ⟨noCheck, eqResult, rfl, nofun⟩

/-- Settles O25: the frame of the shared form (`binary_frame_of_next`), whose only failing check is Div's on a zero top. -/
theorem frameOfBinary : Obligations.FrameOfBinary := by
  intro i s hi
  obtain ⟨check, result, hexec, hcheck⟩ := exec_eq_binary hi s
  refine ⟨(exec_canonical i s).symm, fun hsp => hexec.trans (binary_of_sp_lt_two check result hsp), fun t h2 ht => ?_⟩
  obtain ⟨b, T, htop, hT, rfl⟩ | hreplaces := binary_frame_of_next h2 (hexec.symm.trans ht)
  · obtain ⟨hdiv, rfl, rfl⟩ := hcheck b T hT
    exact .inl ⟨hdiv, htop, rfl⟩
  · exact .inr hreplaces

/-- Settles O21: `a / b` is the floor quotient, and no other number meets its two bounds (`Nat.div_eq_of_lt_le`). -/
theorem divisionIsFloor : Obligations.DivisionIsFloor := by
  intro s u below a b h
  constructor
  · intro hb
    have hupper : a < (a / b + 1) * b := Nat.lt_mul_of_div_lt (Nat.lt_succ_self _) (Nat.pos_of_ne_zero hb)
    have hunique : ∀ q', q' * b ≤ a → a < (q' + 1) * b → q' = a / b := fun _ hlo hhi => (Nat.div_eq_of_lt_le hlo hhi).symm
    exact ⟨a / b, execDiv_of_ne_zero h hb, Nat.div_mul_le_self a b, hupper, hunique, (Nat.div_le_self a b).trans_lt⟩
  · rintro rfl
    exact execDiv_of_zero h

end Sys2Proof.Machine

/-!
The results one by one, in a namespace of their own: in `Sys2Proof.Machine`, `addResult` and the like name the model's result
functions.
-/

namespace Sys2Proof.Machine.Arithmetic

/-- Settles O9: the two outcomes of `binary_noCheck` at the wrapped sum. -/
theorem addResult : Obligations.AddResult :=
  fun s _ => ⟨rfl, binary_noCheck (Machine.addResult s.cfg.wordBits) s⟩

/-- Settles O10: as `Add`, at the wrapped difference, whose subtrahend is the top. -/
theorem subResult : Obligations.SubResult :=
  fun s _ => ⟨rfl, binary_noCheck (Machine.subResult s.cfg.wordBits) s⟩

/-- Settles O11: as `Add`, at the wrapped product. -/
theorem mulResult : Obligations.MulResult :=
  fun s _ => ⟨rfl, binary_noCheck (Machine.mulResult s.cfg.wordBits) s⟩

/-- Settles O12: the shared form with the divisor check, by whether the divisor is 0. -/
theorem divResult : Obligations.DivResult :=
  fun _ _ => ⟨rfl, fun _ _ _ => execDiv_of_ne_zero, binary_of_sp_lt_two divisorCheck Machine.divResult,
    fun _ _ => execDiv_of_zero⟩

/-- Settles O13: as `Add`, at the Word 1 or 0. -/
theorem eqResult : Obligations.EqResult :=
  fun s _ => ⟨rfl, binary_noCheck Machine.eqResult s⟩

end Sys2Proof.Machine.Arithmetic

/-!
# Jmp

The obligation of spec/43_control.md R86. The step of a Running engine is an equation for each answer of the fetch (R61, R62); `Jmp`
never looks at its target (R85), so a target out of range is met by the next step's fetch.
-/

namespace Sys2Proof.Machine

section

variable {s : State}

theorem step_of_fetch_eq_some {i : Instr} (hr : s.Running) (h : fetch s = some i) : step s = exec i s := by
  simp [step, (running_eq_true_iff s).mpr hr, h]

theorem step_of_programSize_le (hr : s.Running) (h : s.programSize ≤ s.ip) : step s = raise .illegalInstructionAccess s := by
  simp [step, (running_eq_true_iff s).mpr hr, (fetch_eq_none_iff s).mpr h]

end

theorem exec_jmp (target : Nat) (s : State) : exec (.jmp target) s = .next (setIp target s) := rfl

/-- A write of `ip` leaves a Running engine Running (R12). -/
theorem setIp_running (target : Nat) {s : State} (h : s.Running) : (setIp target s).Running := h

/-- Settles O14: the jump is the fetched instruction's effect, and the engine it leaves is Running with `ip` at the target, where
the fetch fails when the target is out of range. -/
theorem jmpResult : Obligations.JmpResult := by
  intro s target
  refine ⟨rfl, exec_jmp target s, fun hr hfetch hrange => ⟨?_, ?_⟩⟩
  · exact (step_of_fetch_eq_some hr hfetch).trans (exec_jmp target s)
  · exact step_of_programSize_le (setIp_running target hr) hrange

end Sys2Proof.Machine

/-!
# DumpStack

The obligation of spec/44_debug.md R92.
-/

namespace Sys2Proof.Machine

theorem exec_dumpStack (u : Nat) (s : State) :
    exec (.dumpStack u) s = .next { s with dbg := s.dbg ++ [.dump s.stack], ip := s.ip + 1 } := rfl

/-- The stack that the first `DumpStack` of two leaves is the one it showed, so the second shows it again (R92). -/
theorem exec_dumpStack_twice (u v : Nat) (s : State) :
    ∃ t : State, exec (.dumpStack u) s = .next t ∧
      exec (.dumpStack v) t = .next { s with dbg := s.dbg ++ [.dump s.stack, .dump s.stack], ip := s.ip + 2 } := by
  refine ⟨_, exec_dumpStack u s, ?_⟩
  have hlog : s.dbg ++ [.dump s.stack] ++ [.dump s.stack] = s.dbg ++ [.dump s.stack, .dump s.stack] :=
    List.append_assoc _ _ _
  rw [exec_dumpStack, hlog]

/-- Settles O18: one `DumpStack` by its equation, two by `exec_dumpStack_twice`. -/
theorem dumpStackResult : Obligations.DumpStackResult :=
  fun s u v => ⟨rfl, exec_dumpStack u s, exec_dumpStack_twice u v s⟩

end Sys2Proof.Machine

/-!
# The program construction port and read-out

The obligations of spec/50_interfaces.md R97 and R105. What `append` of a word does is what the decoder answers on it, so R97 rests
on two facts of the decoder (R51, R54); the trap's code stands for the trap because no two traps share one (R25).
-/

namespace Sys2Proof

/-- Above `0x0B` no opcode has its number (R50, R51). -/
theorem opcodeOf_eq_none_of_lt {b : BitVec opcBits} (h : 0x0B < b.toNat) : opcodeOf b = none := by
  refine Option.eq_none_iff_forall_ne_some.mpr fun o ho => ?_
  obtain rfl := (opcodeOf_eq_some_iff b o).mp ho
  exact absurd (Laws.OpcodeMap.number_le o) (Nat.not_le.mpr h)

theorem decode_of_opcodeOf_eq_none {W : Nat} {w : InstrWord W} (h : opcodeOf (opcField w) = none) :
    decode W w = .error (.badOpcode (opcField w)) := by
  simp [decode, h]

/-- The pair of an Instruction's own opcode and operand is this Instruction (R45). -/
@[simp] theorem Instr.ofPair_opcode_operand (i : Instr) : Instr.ofPair i.opcode i.operand = i := by
  cases i <;> rfl

/-- The decoder reads a well-formed Instruction back from its word (R54). -/
theorem decode_encode {W : Nat} {i : Instr} (h : i.WellFormed W) : decode W (encode W i) = .ok i := by
  have hopc : opcodeOf (opcField (encode W i)) = some i.opcode := by
    rw [encode, opcField_packWord, opcodeOf_number]
  have hoperand : operandField (encode W i) = i.operand := by
    rw [encode, operandField_packWord, Nat.mod_eq_of_lt h]
  exact (decode_eq_ok_iff W _ i).mpr ⟨i.opcode, hopc, by rw [hoperand, Instr.ofPair_opcode_operand]⟩

end Sys2Proof

namespace Sys2Proof.Machine

section

variable {s : State}

theorem append_of_room (i : Instr) (h : s.programSize ≠ s.cfg.programCapacity) :
    append i s = (.ok, { s with prog := s.prog ++ [i] }) :=
  if_neg h

theorem append_of_full (i : Instr) (h : s.programSize = s.cfg.programCapacity) : append i s = (.programFull, s) :=
  if_pos h

theorem programSize_append_of_room (i : Instr) (h : s.programSize ≠ s.cfg.programCapacity) :
    (append i s).2.programSize = s.programSize + 1 := by
  simp [append_of_room i h, State.programSize]

/-- A word the decoder refuses is refused by the port, whatever room there is (R97). -/
theorem appendWord_of_decode_eq_error {w : Nat} {e : DecodeError}
    (h : decode s.cfg.wordBits (BitVec.ofNat (opcBits + s.cfg.wordBits) w) = .error e) : appendWord w s = (.badOpcode, s) := by
  simp [appendWord, h]

theorem appendWord_of_decode_eq_ok {w : Nat} {i : Instr}
    (h : decode s.cfg.wordBits (BitVec.ofNat (opcBits + s.cfg.wordBits) w) = .ok i) : appendWord w s = append i s := by
  simp [appendWord, h]

/-- The word of a well-formed Instruction goes through the port as the Instruction does (R57, R97). -/
theorem appendWord_encode {i : Instr} (h : i.WellFormed s.cfg.wordBits) :
    appendWord (encode s.cfg.wordBits i).toNat s = append i s := by
  apply appendWord_of_decode_eq_ok
  rw [BitVec.ofNat_toNat, BitVec.setWidth_eq, decode_encode h]

end

/-- Settles O53: `append` by the room there is, and `appendWord` by the decoder's answer, which comes before the room is looked at. -/
theorem appendContract : Obligations.AppendContract := by
  refine ⟨fun i s hroom => ⟨append_of_room i hroom, programSize_append_of_room i hroom⟩, fun i _ => append_of_full i, ?_,
    fun _ _ => appendWord_encode⟩
  intro w s hopc
  exact appendWord_of_decode_eq_error (decode_of_opcodeOf_eq_none (opcodeOf_eq_none_of_lt hopc))

/-- No two values of the trap register share a code (R25). -/
theorem Trap.code_injective : Function.Injective Trap.code := by
  intro T U
  cases T <;> cases U <;> decide

/-- Equal read-outs come from states that agree on every value R105 names: the read-out loses none of them. -/
theorem eq_of_readOut_eq {s t : State} (h : readOut s = readOut t) :
    s.ip = t.ip ∧ s.stack = t.stack ∧ s.halted = t.halted ∧ s.trap = t.trap ∧ s.programSize = t.programSize :=
  ⟨congrArg ReadOut.ip h, congrArg ReadOut.liveSlots h, congrArg ReadOut.halted h,
    Trap.code_injective (congrArg ReadOut.trapCode h), congrArg ReadOut.programSize h⟩

/-- Settles O57: the read-out's fields are R105's values, `eq_of_readOut_eq` recovers them, and the session's read-out is the
identity. -/
theorem readOutValues : Obligations.ReadOutValues :=
  ⟨fun _ => ⟨rfl, rfl, rfl, rfl, rfl, rfl, rfl⟩, fun _ _ => eq_of_readOut_eq, fun _ => rfl⟩

end Sys2Proof.Machine

/-!
# Precise traps

The obligation of spec/60_exceptions.md R112 and R113. A step from trap `Ok` that ends with a trap has made the trap entry and
nothing else: a completing instruction leaves the trap register alone, `Halt` included, so the cause can only come from a `raise`.
-/

namespace Sys2Proof.Machine

section

variable {s t : State}

/-- Of the three effects of an instruction only the trap entry writes the trap register. -/
theorem ExecEffect.eq_trapEntry (h : ExecEffect s t) (hs : s.trap = .ok) (ht : t.trap ≠ .ok) : t = trapEntry t.trap s := by
  cases h with
  | trap T _ => rfl
  | write st ip => exact absurd hs ht
  | event st e _ => exact absurd hs ht

theorem exec_eq_trapEntry {i : Instr} (h : exec i s = .next t) (hs : s.trap = .ok) (ht : t.trap ≠ .ok) :
    t = trapEntry t.trap s := by
  by_cases hi : i.opcode = .halt
  · obtain ⟨u, rfl⟩ := (opcode_eq_halt_iff i).mp hi
    obtain rfl : advance (setHalted s) = t := Host.Outcome.next.inj ((exec_halt u s).symm.trans h)
    exact absurd hs ht
  · exact (effect_of_exec hi h).eq_trapEntry hs ht

/-- The trap a step ends in is entered from the state before the step, by the failed fetch or by the instruction (R112). -/
theorem step_eq_trapEntry (h : step s = .next t) (hs : s.trap = .ok) (ht : t.trap ≠ .ok) : t = trapEntry t.trap s := by
  obtain ⟨-, hstep⟩ | ⟨-, -, hstep⟩ | ⟨i, -, -, hstep⟩ := step_cases s
  · obtain rfl : s = t := Host.Outcome.next.inj (hstep.symm.trans h)
    exact absurd hs ht
  · obtain rfl := (raise_eq_next_iff _ s t).mp (hstep.symm.trans h)
    rfl
  · exact exec_eq_trapEntry (hstep.symm.trans h) hs ht

end

/-- Settles O38: the state after the step is `trapEntry t.trap s` (`step_eq_trapEntry`), whose fields are R113's. -/
theorem trapsArePrecise : Obligations.TrapsArePrecise := by
  intro s t hs h ht
  have hentry : t = trapEntry t.trap s := step_eq_trapEntry h hs ht
  refine ⟨.inr ht, ?_⟩
  generalize t.trap = T at hentry
  subst hentry
  exact ⟨trapEntry_stack s T, trapEntry_sp s T, trapEntry_ip s T, trapEntry_halted s T, trapEntry_prog s T, trapEntry_cfg s T,
    trapEntry_dbg s T⟩

end Sys2Proof.Machine

/-!
# The outcome of an instruction

R66 as two cases: an instruction whose first failing check (R114) names a trap enters it, and one that passes its checks leaves the
state `completed`. The proofs about steps and runs below start from `exec_eq_outcome`, or from its reading for a step, `StepsTo`.
-/

namespace Sys2Proof.Machine

/-- The element `k` places below the top, 0 for the top itself; 0 where there is none. -/
def fromTop (s : State) (k : Nat) : Nat := s.stack.getD (s.sp - (k + 1)) 0

/-- The Words that an instruction which completes pushes (R72, R73, R75). -/
def pushed (i : Instr) (s : State) : List Nat :=
  match i with
  | .push v => [v]
  | .add _ => [addResult s.cfg.wordBits (fromTop s 1) (fromTop s 0)]
  | .sub _ => [subResult s.cfg.wordBits (fromTop s 1) (fromTop s 0)]
  | .mul _ => [mulResult s.cfg.wordBits (fromTop s 1) (fromTop s 0)]
  | .div _ => [divResult (fromTop s 1) (fromTop s 0)]
  | .dup n => [s.stack.getD n 0]
  | .eq _ => [eqResult (fromTop s 1) (fromTop s 0)]
  | .jmp _ => []
  | .jmpIf _ => []
  | .halt _ => []
  | .dumpStack _ => []
  | .printTop _ => []

/-- The events that an instruction which completes emits (R92, R93). -/
def emitted (i : Instr) (s : State) : List Event :=
  match i with
  | .dumpStack _ => [.dump s.stack]
  | .printTop _ => [.print s.stack]
  | _ => []

/-- The state an instruction leaves when none of its checks fails: its pops are taken off the stack and its pushes put on, `ip` is
as R63 says, `Halt` sets the flag, and the events are logged. -/
def completed (i : Instr) (s : State) : State :=
  { s with
    stack := s.stack.take (s.sp - (pushesPops i s).2) ++ pushed i s
    ip := ipAfter i s
    halted := if i.opcode = .halt then true else s.halted
    dbg := s.dbg ++ emitted i s }

/-- The outcome by the first failing check: its trap, or completion. -/
def outcome (i : Instr) (s : State) : Host.Outcome State Fault Refusal :=
  match firstFailure i s with
  | some T => raise T s
  | none => .next (completed i s)

section

variable {i : Instr} {s : State} {below : List Nat} {a b : Nat}

theorem sp_eq_zero_iff : s.sp = 0 ↔ s.stack = [] := List.length_eq_zero_iff

theorem fromTop_of_append_two (h : s.stack = below ++ [a, b]) : fromTop s 1 = a ∧ fromTop s 0 = b := by
  simp [fromTop, State.sp, h]

theorem take_sp_sub_one (h : s.stack = below ++ [a]) : s.stack.take (s.sp - 1) = below := by
  simp [State.sp, h]

theorem take_sp_sub_two (h : s.stack = below ++ [a, b]) : s.stack.take (s.sp - 2) = below := by
  simp [State.sp, h]

@[simp] theorem take_sp (s : State) : s.stack.take s.sp = s.stack := List.take_length

/-! The checks in the order of R114. -/

theorem firstFailure_of_sp_lt_arity (h : s.sp < arity i) : firstFailure i s = some .stackUnderflow := by
  simp [firstFailure, h]

theorem firstFailure_of_value {T : Trap} (harity : arity i ≤ s.sp) (hvalue : valueFailure i s = some T) :
    firstFailure i s = some T := by
  simp [firstFailure, Nat.not_lt.mpr harity, hvalue]

theorem firstFailure_of_full (harity : arity i ≤ s.sp) (hvalue : valueFailure i s = none) (hpush : pushes i = true)
    (hfull : s.sp = s.cfg.stackCapacity) : firstFailure i s = some .stackOverflow := by
  simp [firstFailure, Nat.not_lt.mpr harity, hvalue, hpush, ← hfull]

theorem firstFailure_eq_none_iff :
    firstFailure i s = none ↔
      arity i ≤ s.sp ∧ valueFailure i s = none ∧ (pushes i = true → s.sp ≠ s.cfg.stackCapacity) := by
  by_cases harity : s.sp < arity i
  · simp [firstFailure, harity, Nat.not_le.mpr harity]
  · cases hvalue : valueFailure i s <;> simp [firstFailure, harity, Nat.not_lt.mp harity, hvalue]

theorem outcome_of_some {T : Trap} (h : firstFailure i s = some T) : outcome i s = raise T s := by
  simp [outcome, h]

theorem outcome_of_none (h : firstFailure i s = none) : outcome i s = .next (completed i s) := by
  simp [outcome, h]

/-! What `completed` is for the instructions that are not binary. -/

theorem completed_push (v : Nat) (s : State) : completed (.push v) s = advance (setStack (s.stack ++ [v]) s) := by
  simp [completed, pushed, pushesPops, emitted, ipAfter, Instr.opcode, advance, setIp, setStack]

theorem completed_dup (n : Nat) (s : State) :
    completed (.dup n) s = advance (setStack (s.stack ++ [s.stack.getD n 0]) s) := by
  simp [completed, pushed, pushesPops, emitted, ipAfter, Instr.opcode, advance, setIp, setStack]

theorem completed_jmp (target : Nat) (s : State) : completed (.jmp target) s = setIp target s := by
  simp [completed, pushed, pushesPops, emitted, ipAfter, Instr.opcode, setIp]

theorem completed_jmpIf_of_one (target : Nat) (h : s.stack = below ++ [1]) :
    completed (.jmpIf target) s = setIp target (setStack below s) := by
  simp [completed, pushed, pushesPops, emitted, ipAfter, Instr.opcode, setIp, setStack, topIsOne_iff h, take_sp_sub_one h]

theorem completed_jmpIf_of_ne_one (target : Nat) (h : s.stack = below ++ [a]) (ha : a ≠ 1) :
    completed (.jmpIf target) s =
      advance (setStack (if s.cfg.jmpIfNotTakenKeeps then s.stack else below) s) := by
  cases hk : s.cfg.jmpIfNotTakenKeeps <;>
    simp [completed, pushed, pushesPops, emitted, ipAfter, Instr.opcode, advance, setIp, setStack, topIsOne_iff h, ha, hk,
      take_sp_sub_one h]

theorem completed_halt (u : Nat) (s : State) : completed (.halt u) s = advance (setHalted s) := by
  simp [completed, pushed, pushesPops, emitted, ipAfter, Instr.opcode, advance, setIp, setHalted]

theorem completed_dumpStack (u : Nat) (s : State) :
    completed (.dumpStack u) s = advance (emit (.dump s.stack) s) := by
  simp [completed, pushed, pushesPops, emitted, ipAfter, Instr.opcode, advance, setIp, emit]

theorem completed_printTop (u : Nat) (h : s.stack = below ++ [a]) :
    completed (.printTop u) s = advance (setStack below (emit (.print s.stack) s)) := by
  simp [completed, pushed, pushesPops, emitted, ipAfter, Instr.opcode, advance, setIp, setStack, emit, take_sp_sub_one h]

/-! The outcome of each arm. -/

theorem execPush_eq_outcome (v : Nat) (s : State) : execPush v s = outcome (.push v) s := by
  have harity : arity (.push v) ≤ s.sp := Nat.zero_le _
  by_cases hfull : s.sp = s.cfg.stackCapacity
  · rw [outcome_of_some (firstFailure_of_full harity rfl rfl hfull)]
    exact pushAdvance_of_full v hfull
  · rw [outcome_of_none (firstFailure_eq_none_iff.mpr ⟨harity, rfl, fun _ => hfull⟩), completed_push]
    exact pushAdvance_of_room v hfull

/-- What R114's checks and `completed` say of an instruction of the shared form with `check` and `result` (R75). -/
structure IsBinary (i : Instr) (check : Nat → Option Trap) (result : Nat → Nat → Nat) (s : State) : Prop where
  arity_eq : arity i = 2
  value_eq : 2 ≤ s.sp → valueFailure i s = check (fromTop s 0)
  pushes_eq : pushes i = false
  completed_eq : completed i s =
    { s with
      stack := s.stack.take (s.sp - 2) ++ [result (fromTop s 1) (fromTop s 0)], ip := s.ip + 1, dbg := s.dbg ++ [] }

theorem binary_eq_outcome (check : Nat → Option Trap) (result : Nat → Nat → Nat) (hi : IsBinary i check result s) :
    binary check result s = outcome i s := by
  by_cases h2 : s.sp < 2
  · rw [outcome_of_some (firstFailure_of_sp_lt_arity (hi.arity_eq ▸ h2)), binary_of_sp_lt_two check result h2]
  · have hsp : 2 ≤ s.sp := Nat.not_lt.mp h2
    obtain ⟨below, a, b, hst⟩ := exists_append_two hsp
    obtain ⟨ha, hb⟩ := fromTop_of_append_two hst
    have harity : arity i ≤ s.sp := hi.arity_eq ▸ hsp
    have hvalue : valueFailure i s = check b := hb ▸ hi.value_eq hsp
    cases hcheck : check b with
    | some T => rw [outcome_of_some (firstFailure_of_value harity (hvalue.trans hcheck)), binary_of_check_some result hst hcheck]
    | none =>
      have hpass : firstFailure i s = none :=
        firstFailure_eq_none_iff.mpr ⟨harity, hvalue.trans hcheck, by simp [hi.pushes_eq]⟩
      rw [outcome_of_none hpass, binary_of_check_none result hst hcheck, hi.completed_eq, take_sp_sub_two hst, ha, hb,
        List.append_nil]
      rfl

/-- The divisor check reads the top of the stack (R79). -/
theorem valueFailure_div (u : Nat) (h : 2 ≤ s.sp) : valueFailure (.div u) s = divisorCheck (fromTop s 0) := by
  obtain ⟨below, a, b, hst⟩ := exists_append_two h
  simp [valueFailure, divisorCheck, fromTop, State.sp, hst]

theorem valueFailure_dup_of_lt {n : Nat} (h : n < s.sp) : valueFailure (.dup n) s = none :=
  if_neg (Nat.not_le.mpr h)

theorem execDup_eq_outcome (n : Nat) (s : State) : execDup n s = outcome (.dup n) s := by
  by_cases h0 : s.sp = 0
  · have harity : s.sp < arity (.dup n) := h0 ▸ Nat.zero_lt_one
    rw [outcome_of_some (firstFailure_of_sp_lt_arity harity), execDup_of_sp_eq_zero n h0]
  have harity : arity (.dup n) ≤ s.sp := Nat.pos_of_ne_zero h0
  by_cases hn : s.sp ≤ n
  · rw [outcome_of_some (firstFailure_of_value harity (if_pos hn)), execDup_of_sp_le h0 hn]
  have hlt : n < s.sp := Nat.not_le.mp hn
  have hslot : s.stack[n]? = some (s.stack.getD n 0) := by simp [show n < s.stack.length from hlt]
  rw [execDup_of_getElem?_eq_some hslot]
  by_cases hfull : s.sp = s.cfg.stackCapacity
  · rw [outcome_of_some (firstFailure_of_full harity (valueFailure_dup_of_lt hlt) rfl hfull), pushAdvance_of_full _ hfull]
  · have hpass : firstFailure (.dup n) s = none :=
      firstFailure_eq_none_iff.mpr ⟨harity, valueFailure_dup_of_lt hlt, fun _ => hfull⟩
    rw [outcome_of_none hpass, completed_dup, pushAdvance_of_room _ hfull]

/-- `JmpIf` and `PrintTop` have the arity check alone, and it fails on the empty stack (R110). -/
theorem firstFailure_of_stack_eq_nil (harity : arity i = 1) (h : s.stack = []) : firstFailure i s = some .stackUnderflow :=
  firstFailure_of_sp_lt_arity (by simp [harity, sp_eq_zero_iff.mpr h])

theorem firstFailure_of_stack_eq_append (harity : arity i = 1) (hvalue : valueFailure i s = none) (hpush : pushes i = false)
    (h : s.stack = below ++ [a]) : firstFailure i s = none :=
  firstFailure_eq_none_iff.mpr ⟨by simp [harity, State.sp, h], hvalue, by simp [hpush]⟩

theorem execJmpIf_eq_outcome (target : Nat) (s : State) : execJmpIf target s = outcome (.jmpIf target) s := by
  obtain hnil | ⟨below, a, h⟩ := List.eq_nil_or_concat' s.stack
  · rw [outcome_of_some (firstFailure_of_stack_eq_nil rfl hnil), execJmpIf_of_stack_eq_nil target hnil]
  · rw [outcome_of_none (firstFailure_of_stack_eq_append rfl rfl rfl h)]
    by_cases ha : a = 1
    · subst ha
      rw [execJmpIf_of_top_eq_one target h, completed_jmpIf_of_one target h]
    · rw [execJmpIf_of_top_ne_one target h ha, completed_jmpIf_of_ne_one target h ha]
      unfold fallThrough
      split <;> rfl

theorem execPrintTop_eq_outcome (u : Nat) (s : State) : execPrintTop s = outcome (.printTop u) s := by
  obtain hnil | ⟨below, a, h⟩ := List.eq_nil_or_concat' s.stack
  · rw [outcome_of_some (firstFailure_of_stack_eq_nil rfl hnil), execPrintTop_of_stack_eq_nil hnil]
  · rw [outcome_of_none (firstFailure_of_stack_eq_append rfl rfl rfl h), completed_printTop u h,
      execPrintTop_of_stack_eq_append h]

/-- `Jmp`, `Halt` and `DumpStack` have no check (R110): they always complete. -/
theorem outcome_of_no_check (harity : arity i = 0) (hvalue : valueFailure i s = none) (hpush : pushes i = false) :
    outcome i s = .next (completed i s) :=
  outcome_of_none (firstFailure_eq_none_iff.mpr ⟨by simp [harity], hvalue, by simp [hpush]⟩)

/-- Every instruction does what its first failing check says (R66, R114). -/
theorem exec_eq_outcome (i : Instr) (s : State) : exec i s = outcome i s := by
  cases i with
  | push v => exact execPush_eq_outcome v s
  | add _ => exact binary_eq_outcome noCheck (addResult s.cfg.wordBits) ⟨rfl, fun _ => rfl, rfl, rfl⟩
  | sub _ => exact binary_eq_outcome noCheck (subResult s.cfg.wordBits) ⟨rfl, fun _ => rfl, rfl, rfl⟩
  | mul _ => exact binary_eq_outcome noCheck (mulResult s.cfg.wordBits) ⟨rfl, fun _ => rfl, rfl, rfl⟩
  | div u => exact binary_eq_outcome divisorCheck divResult ⟨rfl, valueFailure_div u, rfl, rfl⟩
  | dup n => exact execDup_eq_outcome n s
  | eq _ => exact binary_eq_outcome noCheck eqResult ⟨rfl, fun _ => rfl, rfl, rfl⟩
  | jmp target => rw [outcome_of_no_check rfl rfl rfl, completed_jmp]; rfl
  | jmpIf target => exact execJmpIf_eq_outcome target s
  | halt u => rw [outcome_of_no_check rfl rfl rfl, completed_halt]; rfl
  | dumpStack u => rw [outcome_of_no_check rfl rfl rfl, completed_dumpStack]; rfl
  | printTop u => exact execPrintTop_eq_outcome u s

theorem exec_of_failure {T : Trap} (h : firstFailure i s = some T) : exec i s = raise T s :=
  (exec_eq_outcome i s).trans (outcome_of_some h)

theorem exec_of_success (h : firstFailure i s = none) : exec i s = .next (completed i s) :=
  (exec_eq_outcome i s).trans (outcome_of_none h)

/-- The next state of an instruction: it has entered the trap of its first failing check, or completed. -/
theorem exec_next_cases {t : State} (h : exec i s = .next t) :
    (∃ T, firstFailure i s = some T ∧ t = trapEntry T s) ∨ (firstFailure i s = none ∧ t = completed i s) := by
  cases hfail : firstFailure i s with
  | some T => exact .inl ⟨T, rfl, (raise_eq_next_iff T s t).mp ((exec_of_failure hfail).symm.trans h)⟩
  | none => exact .inr ⟨rfl, Host.Outcome.next.inj (h.symm.trans (exec_of_success hfail))⟩

theorem stackUnderflow_mem_trapsOf (h : arity i ≠ 0) : Trap.stackUnderflow ∈ trapsOf i := by
  cases i <;> simp_all [arity, trapsOf]

theorem valueFailure_mem_trapsOf {T : Trap} (h : valueFailure i s = some T) : T ∈ trapsOf i := by
  cases i with
  | div _ =>
    obtain ⟨-, rfl⟩ : s.stack[s.sp - 1]? = some 0 ∧ Trap.divideByZero = T := by simpa [valueFailure] using h
    simp [trapsOf]
  | dup n =>
    obtain ⟨-, rfl⟩ : s.sp ≤ n ∧ Trap.illegalInstructionAccess = T := by simpa [valueFailure] using h
    simp [trapsOf]
  | _ => cases h

theorem stackOverflow_mem_trapsOf (h : pushes i = true) : Trap.stackOverflow ∈ trapsOf i := by
  cases i <;> simp_all [pushes, trapsOf]

/-- A failing check names a trap of its instruction's row of R110. -/
theorem firstFailure_mem_trapsOf {T : Trap} (h : firstFailure i s = some T) : T ∈ trapsOf i := by
  by_cases harity : s.sp < arity i
  · rw [firstFailure_of_sp_lt_arity harity] at h
    obtain rfl := Option.some.inj h
    exact stackUnderflow_mem_trapsOf (Nat.ne_zero_of_lt harity)
  cases hvalue : valueFailure i s with
  | some U =>
    rw [firstFailure_of_value (Nat.not_lt.mp harity) hvalue] at h
    obtain rfl := Option.some.inj h
    exact valueFailure_mem_trapsOf hvalue
  | none =>
    obtain ⟨⟨hpush, -⟩, rfl⟩ : (pushes i = true ∧ s.sp = s.cfg.stackCapacity) ∧ Trap.stackOverflow = T := by
      simpa [firstFailure, harity, hvalue] using h
    exact stackOverflow_mem_trapsOf hpush

theorem ok_notMem_trapsOf (i : Instr) : Trap.ok ∉ trapsOf i := by
  cases i <;> simp [trapsOf]

theorem ne_ok_of_firstFailure {T : Trap} (h : firstFailure i s = some T) : T ≠ .ok :=
  fun hok => ok_notMem_trapsOf i (hok ▸ firstFailure_mem_trapsOf h)

end

end Sys2Proof.Machine

/-!
# A step and a run

The four kinds of step as one relation that says everything a step can do (R60 to R66), and a run as an iterate of `stepState`, so that
facts about runs are Mathlib's facts about iterates.
-/

namespace Sys2Proof.Machine

/-- The next state of a step: none taken, a failed fetch, the trap of the fetched instruction's first failing check, or the
instruction completed. -/
inductive StepsTo (s : State) : State → Prop where
  | idle (hterm : s.Terminal) : StepsTo s s
  | failedFetch (hrun : s.Running) (hrange : s.programSize ≤ s.ip) : StepsTo s (trapEntry .illegalInstructionAccess s)
  | traps (i : Instr) (T : Trap) (hrun : s.Running) (hfetch : fetch s = some i) (hfail : firstFailure i s = some T) :
    StepsTo s (trapEntry T s)
  | completes (i : Instr) (hrun : s.Running) (hfetch : fetch s = some i) (hpass : firstFailure i s = none) :
    StepsTo s (completed i s)

section

variable {s t : State}

theorem step_of_terminal (h : s.Terminal) : step s = .next s := by
  simp [step, (running_eq_false_iff s).mpr h]

theorem not_terminal_of_running (h : s.Running) : ¬ s.Terminal := by
  simp [State.Terminal, h.1, h.2]

theorem StepsTo.step_eq (h : StepsTo s t) : step s = .next t := by
  cases h with
  | idle hterm => exact step_of_terminal hterm
  | failedFetch hrun hrange => exact step_of_programSize_le hrun hrange
  | traps i T hrun hfetch hfail => exact (step_of_fetch_eq_some hrun hfetch).trans (exec_of_failure hfail)
  | completes i hrun hfetch hpass => exact (step_of_fetch_eq_some hrun hfetch).trans (exec_of_success hpass)

theorem exists_stepsTo (s : State) : ∃ t, StepsTo s t := by
  obtain ⟨hidle, -⟩ | ⟨hrun, hfetch, -⟩ | ⟨i, hrun, hfetch, -⟩ := step_cases s
  · exact ⟨s, .idle ((running_eq_false_iff s).mp hidle)⟩
  · exact ⟨_, .failedFetch ((running_eq_true_iff s).mp hrun) ((fetch_eq_none_iff s).mp hfetch)⟩
  · cases hfail : firstFailure i s with
    | some T => exact ⟨_, .traps i T ((running_eq_true_iff s).mp hrun) hfetch hfail⟩
    | none => exact ⟨_, .completes i ((running_eq_true_iff s).mp hrun) hfetch hfail⟩

theorem step_eq_next_iff : step s = .next t ↔ StepsTo s t := by
  refine ⟨fun h => ?_, StepsTo.step_eq⟩
  obtain ⟨t', ht'⟩ := exists_stepsTo s
  obtain rfl : t = t' := Host.Outcome.next.inj (h.symm.trans ht'.step_eq)
  exact ht'

theorem stepState_eq_of_step (h : step s = .next t) : stepState s = t := by
  simp [stepState, h]

theorem StepsTo.stepState_eq (h : StepsTo s t) : stepState s = t := stepState_eq_of_step h.step_eq

theorem stepsTo_stepState (s : State) : StepsTo s (stepState s) := by
  obtain ⟨t, h⟩ := exists_stepsTo s
  exact h.stepState_eq ▸ h

theorem step_eq_stepState (s : State) : step s = .next (stepState s) := (stepsTo_stepState s).step_eq

/-- Settles O34: the outcome of every instruction and of every step has been said, and is a next state. -/
theorem everyStepAnswersNext : Obligations.EveryStepAnswersNext := by
  refine ⟨fun i s => ?_, fun s => ⟨_, step_eq_stepState s⟩⟩
  cases hfail : firstFailure i s with
  | some T => exact ⟨_, exec_of_failure hfail⟩
  | none => exact ⟨_, exec_of_success hfail⟩

/-! Runs. -/

theorem runSteps_eq_iterate (n : Nat) (s : State) : runSteps n s = stepState^[n] s := by
  induction n generalizing s with
  | zero => rfl
  | succ n ih => exact ih (stepState s)

theorem runSteps_succ (n : Nat) (s : State) : runSteps (n + 1) s = stepState (runSteps n s) := by
  simp only [runSteps_eq_iterate, Function.iterate_succ_apply']

/-- A predicate that every step keeps holds after any run from a state that meets it. -/
theorem runSteps_keeps {P : State → Prop} (hstep : ∀ s, P s → P (stepState s)) (h : P s) (n : Nat) : P (runSteps n s) := by
  rw [runSteps_eq_iterate]
  exact Function.Iterate.rec P h hstep n

theorem runSteps_of_fixed (h : stepState s = s) (n : Nat) : runSteps n s = s := by
  rw [runSteps_eq_iterate]
  exact Function.iterate_fixed h n

theorem runSteps_of_terminal (h : s.Terminal) (n : Nat) : runSteps n s = s :=
  runSteps_of_fixed (stepState_eq_of_step (step_of_terminal h)) n

end

/-- Settles O35: the idle step is the identity, and so is any number of them. -/
theorem terminalForever : Obligations.TerminalForever :=
  fun _ h => ⟨step_of_terminal h, runSteps_of_terminal h⟩

/-- Settles O50: the jump to its own index writes into `ip` what stands there, so the step is a fixed point. -/
theorem selfJumpLoops : Obligations.SelfJumpLoops := by
  intro s hrun hfetch n
  have hstep : stepState s = s := stepState_eq_of_step ((step_of_fetch_eq_some hrun hfetch).trans (exec_jmp s.ip s))
  have hstay : runSteps n s = s := runSteps_of_fixed hstep n
  exact ⟨hstay, hstay.symm ▸ hrun⟩

/-- Settles O36: the equation of the failed fetch. -/
theorem failedFetchTraps : Obligations.FailedFetchTraps :=
  fun _ => step_of_programSize_le

/-- Settles O32: the equation of a successful fetch; what word the entry was decoded from plays no role. -/
theorem stepRunsDecodedInstruction : Obligations.StepRunsDecodedInstruction :=
  fun _ _ _ hrun _ => step_of_fetch_eq_some hrun

/-- Settles O52: the reset engine is Running with an empty store, so its fetch at index 0 fails. -/
theorem emptyStoreTrapsAtOnce : Obligations.EmptyStoreTrapsAtOnce :=
  fun c => step_of_programSize_le (resetWith_running c) (Nat.le_refl 0)

/-! The host's budget (R69). -/

section

variable {s : State}

theorem budgetRun_of_running (n : Nat) (h : s.Running) : budgetRun (n + 1) s = budgetRun n (stepState s) :=
  if_pos ((running_eq_true_iff s).mpr h)

theorem budgetRun_of_terminal (n : Nat) (h : s.Terminal) : budgetRun n s = s := by
  cases n with
  | zero => rfl
  | succ n => simp [budgetRun, (running_eq_false_iff s).mpr h]

/-- While the engine is Running the host's budget is spent step by step. -/
theorem budgetRun_add (k m : Nat) (s : State) (h : ∀ j, j < k → (runSteps j s).Running) :
    budgetRun (k + m) s = budgetRun m (runSteps k s) := by
  induction k generalizing s with
  | zero => simp [runSteps]
  | succ k ih =>
    have hrun : s.Running := h 0 (Nat.succ_pos k)
    have hlater : ∀ j, j < k → (runSteps j (stepState s)).Running := fun j hj => h (j + 1) (Nat.succ_lt_succ hj)
    rw [Nat.succ_add, budgetRun_of_running _ hrun, ih _ hlater]
    rfl

theorem budgetRun_of_all_running {N : Nat} (h : ∀ j, j < N → (runSteps j s).Running) : budgetRun N s = runSteps N s :=
  budgetRun_add N 0 s h

end

/-- Settles O49: a budget below `k` is spent on Running states, and one of `k` or more leaves a rest that the terminal state after
`k` steps ignores. -/
theorem budgetedRun : Obligations.BudgetedRun := by
  refine fun N s => ⟨fun k hterm hrun => ?_, budgetRun_of_all_running⟩
  obtain hN | hk := Nat.le_total N k
  · rw [Nat.min_eq_left hN]
    exact budgetRun_of_all_running fun j hj => hrun j (Nat.lt_of_lt_of_le hj hN)
  · obtain ⟨m, rfl⟩ := Nat.exists_eq_add_of_le hk
    rw [Nat.min_eq_right hk, budgetRun_add k m s hrun, budgetRun_of_terminal m hterm]

end Sys2Proof.Machine

/-!
# What every step keeps

The invariants of spec/10_state.md §11 and of spec/60_exceptions.md §3 and §5, one lemma for a trap entry and one for a completed
instruction each.
-/

namespace Sys2Proof.Machine

section

variable {i : Instr} {s t : State}

/-! How far an instruction reaches into the stack. -/

theorem pops_le_arity (i : Instr) (s : State) : (pushesPops i s).2 ≤ arity i := by
  cases i with
  | jmpIf target => simp only [pushesPops, arity]; split <;> simp
  | _ => simp [pushesPops, arity]

theorem length_pushed (i : Instr) (s : State) : (pushed i s).length = (pushesPops i s).1 := by
  cases i with
  | jmpIf target => simp only [pushed, pushesPops]; split <;> rfl
  | _ => rfl

theorem pops_le_sp (hpass : firstFailure i s = none) : (pushesPops i s).2 ≤ s.sp :=
  (pops_le_arity i s).trans (firstFailure_eq_none_iff.mp hpass).1

/-- The stack pointer after a completed instruction, with no subtraction of naturals (R19). -/
theorem completed_sp (hpass : firstFailure i s = none) :
    (completed i s).sp + (pushesPops i s).2 = s.sp + (pushesPops i s).1 := by
  have hpops := pops_le_sp hpass
  have hsp : (completed i s).sp = s.sp - (pushesPops i s).2 + (pushesPops i s).1 := by
    simp [completed, State.sp, length_pushed]
  omega

/-- Only the push instructions push more than they pop, and then by one. -/
theorem pushes_count_le (i : Instr) (s : State) :
    (pushesPops i s).1 ≤ (pushesPops i s).2 + if pushes i = true then 1 else 0 := by
  cases i with
  | jmpIf target => simp only [pushesPops, pushes]; split <;> simp
  | _ => simp [pushesPops, pushes]

/-- Settles O30: a trap leaves the stack, and a completed instruction takes its pops off and puts its pushes on. -/
theorem stackPointerLockstep : Obligations.StackPointerLockstep := by
  intro i s t hs h
  obtain ⟨T, hT, rfl⟩ | ⟨hpass, rfl⟩ := exec_next_cases h
  · exact ⟨fun hok => absurd hok (ne_ok_of_firstFailure hT), fun _ => rfl⟩
  · exact ⟨fun _ => completed_sp hpass, fun hne => absurd hs hne⟩

/-! Words and bounds (R29 (a) to (c) and (f)). -/

theorem completed_sp_le (hpass : firstFailure i s = none) (h : s.sp ≤ s.cfg.stackCapacity) :
    (completed i s).sp ≤ s.cfg.stackCapacity := by
  have hsp := completed_sp hpass
  have hcount := pushes_count_le i s
  by_cases hpush : pushes i = true
  · have hroom : s.sp ≠ s.cfg.stackCapacity := (firstFailure_eq_none_iff.mp hpass).2.2 hpush
    rw [if_pos hpush] at hcount
    omega
  · rw [if_neg hpush] at hcount
    omega

theorem isWord_getD {W : Nat} {st : List Nat} (h : ∀ v ∈ st, IsWord W v) (n : Nat) : IsWord W (st.getD n 0) := by
  rw [List.getD_eq_getElem?_getD]
  cases hn : st[n]? with
  | none => exact Nat.two_pow_pos W
  | some v => exact h v (List.mem_of_getElem? hn)

theorem isWord_eqResult {W : Nat} (hW : 1 ≤ W) (a b : Nat) : IsWord W (eqResult a b) := by
  unfold eqResult
  split
  · exact Nat.one_lt_two_pow (Nat.ne_of_gt hW)
  · exact Nat.two_pow_pos W

/-- Every result of a binary instruction is a Word (R80, R81, R83), and so is a literal and a copied slot. -/
theorem isWord_of_mem_pushed (hW : 1 ≤ s.cfg.wordBits) (hstack : ∀ v ∈ s.stack, IsWord s.cfg.wordBits v)
    (hi : i.WellFormed s.cfg.wordBits) : ∀ v ∈ pushed i s, IsWord s.cfg.wordBits v := by
  have hmod : ∀ x, IsWord s.cfg.wordBits (x % 2 ^ s.cfg.wordBits) := fun x => Nat.mod_lt x (Nat.two_pow_pos _)
  cases i with
  | push v => exact List.forall_mem_singleton.mpr hi
  | add _ => exact List.forall_mem_singleton.mpr (hmod _)
  | sub _ => exact List.forall_mem_singleton.mpr (hmod _)
  | mul _ => exact List.forall_mem_singleton.mpr (hmod _)
  | div _ =>
    have hdividend : IsWord s.cfg.wordBits (fromTop s 1) := isWord_getD hstack _
    exact List.forall_mem_singleton.mpr ((Nat.div_le_self _ _).trans_lt hdividend)
  | dup n => exact List.forall_mem_singleton.mpr (isWord_getD hstack n)
  | eq _ => exact List.forall_mem_singleton.mpr (isWord_eqResult hW _ _)
  | _ => simp [pushed]

/-- `ip` becomes the instruction's operand, or one more than it was (R63). -/
theorem ipAfter_eq_or (i : Instr) (s : State) : ipAfter i s = i.operand ∨ ipAfter i s = s.ip + 1 := by
  cases i with
  | jmp target => exact .inl rfl
  | jmpIf target => exact ite_eq_or_eq _ _ _
  | _ => exact .inr rfl

theorem snap_of_mem_emitted {e : Event} (h : e ∈ emitted i s) : e.snap = s.stack ∧ e.isReport = false := by
  cases i with
  | dumpStack _ =>
    obtain rfl := List.mem_singleton.mp h
    exact ⟨rfl, rfl⟩
  | printTop _ =>
    obtain rfl := List.mem_singleton.mp h
    exact ⟨rfl, rfl⟩
  | _ => exact absurd h List.not_mem_nil

/-- A trap entry changes neither store, and its report shows the stack. -/
theorem State.Wf.trapEntry (h : s.Wf) (T : Trap) (hrun : s.Running) : (trapEntry T s).Wf where
  cfg := h.cfg
  stack := h.stack
  progSize := h.progSize
  prog := h.prog
  ip := h.ip
  exclusive := fun ⟨hhalted, _⟩ => absurd hhalted (by simp [hrun.1])
  dbg := List.forall_mem_append.mpr ⟨h.dbg, List.forall_mem_singleton.mpr h.stack⟩

theorem State.Wf.completed (h : s.Wf) (hrun : s.Running) (hfetch : fetch s = some i) (hpass : firstFailure i s = none) :
    (completed i s).Wf where
  cfg := h.cfg
  stack := by
    refine ⟨completed_sp_le hpass h.stack.1, fun v hv => ?_⟩
    obtain hold | hnew := List.mem_append.mp hv
    · exact h.stack.2 v (List.mem_of_mem_take hold)
    · exact isWord_of_mem_pushed h.cfg.1 h.stack.2 (h.prog i (mem_prog_of_fetch hfetch)) v hnew
  progSize := h.progSize
  prog := h.prog
  ip := by
    change IsWord s.cfg.wordBits (ipAfter i s)
    obtain htarget | hnext := ipAfter_eq_or i s
    · exact htarget.symm ▸ h.prog i (mem_prog_of_fetch hfetch)
    · obtain ⟨-, -, -, -, hcap⟩ := h.cfg
      have hin : s.ip < s.programSize := ((fetch_eq_some_iff s i).mp hfetch).1
      have hsize := h.progSize
      have hpos : 0 < 2 ^ s.cfg.wordBits := Nat.two_pow_pos _
      have hword : s.ip + 1 < 2 ^ s.cfg.wordBits := by omega
      exact hnext.symm ▸ hword
  exclusive := fun ⟨_, htrapped⟩ => htrapped hrun.2
  dbg := List.forall_mem_append.mpr ⟨h.dbg, fun _ he => (snap_of_mem_emitted he).1.symm ▸ h.stack⟩

theorem StepsTo.wf (hstep : StepsTo s t) (h : s.Wf) : t.Wf := by
  cases hstep with
  | idle _ => exact h
  | failedFetch hrun _ => exact h.trapEntry _ hrun
  | traps _ T hrun _ _ => exact h.trapEntry T hrun
  | completes _ hrun hfetch hpass => exact h.completed hrun hfetch hpass

/-- Settles O42: each kind of step keeps the invariants (`StepsTo.wf`). -/
theorem stepKeepsWf : Obligations.StepKeepsWf :=
  fun _ _ h hstep => (step_eq_next_iff.mp hstep).wf h

/-! The trap register and the event log (R113, R117). -/

theorem State.ReportsAgree.trapEntry {T : Trap} (h : s.ReportsAgree) (hrun : s.Running) (hT : T ≠ .ok) :
    (trapEntry T s).ReportsAgree :=
  ⟨fun hok => absurd hok hT, fun _ => ⟨s.dbg, rfl, h.1 hrun.2⟩⟩

theorem State.ReportsAgree.completed (h : s.ReportsAgree) (hrun : s.Running) (i : Instr) : (completed i s).ReportsAgree := by
  refine ⟨fun _ e he => ?_, fun htrapped => absurd hrun.2 htrapped⟩
  obtain hold | hnew := List.mem_append.mp he
  · exact h.1 hrun.2 e hold
  · exact (snap_of_mem_emitted hnew).2

theorem StepsTo.reportsAgree (hstep : StepsTo s t) (h : s.ReportsAgree) : t.ReportsAgree := by
  cases hstep with
  | idle _ => exact h
  | failedFetch hrun _ => exact h.trapEntry hrun (by decide)
  | traps _ T hrun _ hfail => exact h.trapEntry hrun (ne_ok_of_firstFailure hfail)
  | completes i hrun _ _ => exact h.completed hrun i

/-- Settles O43: a report is logged by a trap entry alone, which is taken only from a state without one. -/
theorem stepKeepsReportsAgree : Obligations.StepKeepsReportsAgree :=
  fun _ _ h hstep => (step_eq_next_iff.mp hstep).reportsAgree h

/-- The reset state has empty stores and an empty log, and the capacities of R6 are at least 1. -/
theorem resetWith_wf {c : Config} (hc : c.wf) : (State.resetWith c).Wf where
  cfg := hc
  stack := ⟨Nat.zero_le _, by simp [State.resetWith]⟩
  progSize := Nat.zero_le _
  prog := by simp [State.resetWith]
  ip := Nat.two_pow_pos _
  exclusive := not_and_of_not_left _ Bool.false_ne_true
  dbg := by simp [State.resetWith]

theorem resetWith_reportsAgree (c : Config) : (State.resetWith c).ReportsAgree :=
  ⟨fun _ => by simp [State.resetWith], fun htrapped => absurd rfl htrapped⟩

/-- Settles O44: at reset every store is empty; R6's test configuration meets its constraints. -/
theorem resetMeetsInvariants : Obligations.ResetMeetsInvariants :=
  have htest : Config.test.wf := by decide
  ⟨fun c hc => ⟨resetWith_wf hc, resetWith_reportsAgree c⟩, resetWith_wf htest, resetWith_reportsAgree _⟩

/-! The program store, the parameters and the log (R22, R43, R29 (g)). -/

theorem exec_prog_cfg (h : exec i s = .next t) : t.prog = s.prog ∧ t.cfg = s.cfg := by
  obtain ⟨T, -, rfl⟩ | ⟨-, rfl⟩ := exec_next_cases h
  · exact ⟨rfl, rfl⟩
  · exact ⟨rfl, rfl⟩

theorem stepState_prog_cfg (s : State) : (stepState s).prog = s.prog ∧ (stepState s).cfg = s.cfg := by
  have hstep := stepsTo_stepState s
  generalize stepState s = t at hstep
  cases hstep <;> exact ⟨rfl, rfl⟩

theorem runSteps_prog_cfg (n : Nat) (s : State) : (runSteps n s).prog = s.prog ∧ (runSteps n s).cfg = s.cfg := by
  refine runSteps_keeps (P := fun t => t.prog = s.prog ∧ t.cfg = s.cfg) (fun t ⟨hprog, hcfg⟩ => ?_) ⟨rfl, rfl⟩ n
  obtain ⟨hprog', hcfg'⟩ := stepState_prog_cfg t
  exact ⟨hprog'.trans hprog, hcfg'.trans hcfg⟩

/-- Settles O23: neither a trap entry nor a completed instruction writes them. -/
theorem programNeverWritten : Obligations.ProgramNeverWritten :=
  ⟨fun _ _ _ => exec_prog_cfg, runSteps_prog_cfg⟩

/-! A live slot (R74). -/

theorem popsOfStep_of_completes (hrun : s.Running) (hfetch : fetch s = some i) (hpass : firstFailure i s = none) :
    popsOfStep s = (pushesPops i s).2 := by
  simp [popsOfStep, (running_eq_true_iff s).mpr hrun, hfetch, hpass]

theorem completed_getElem? {n : Nat} (h : n + (pushesPops i s).2 < s.sp) :
    n < (completed i s).sp ∧ (completed i s).stack[n]? = s.stack[n]? := by
  have hn : n < s.sp - (pushesPops i s).2 := Nat.lt_sub_of_add_lt h
  have hlen : (s.stack.take (s.sp - (pushesPops i s).2)).length = s.sp - (pushesPops i s).2 :=
    List.length_take_of_le (Nat.sub_le s.sp _)
  have hkept : n < (s.stack.take (s.sp - (pushesPops i s).2)).length := hlen.symm ▸ hn
  constructor
  · exact Nat.lt_of_lt_of_le hkept (List.prefix_append _ (pushed i s)).length_le
  · exact (List.getElem?_append_left hkept).trans (List.getElem?_take_of_lt hn)

theorem stepState_getElem? {n : Nat} (h : n + popsOfStep s < s.sp) :
    n < (stepState s).sp ∧ (stepState s).stack[n]? = s.stack[n]? := by
  have hlive : n < s.sp := Nat.lt_of_add_right_lt h
  have hstep := stepsTo_stepState s
  generalize stepState s = t at hstep
  cases hstep with
  | idle _ => exact ⟨hlive, rfl⟩
  | failedFetch _ _ => exact ⟨hlive, rfl⟩
  | traps _ _ _ _ _ => exact ⟨hlive, rfl⟩
  | completes i hrun hfetch hpass => exact completed_getElem? (popsOfStep_of_completes hrun hfetch hpass ▸ h)

/-- Settles O31: what lies below an instruction's pops is kept (`completed_getElem?`), step by step. -/
theorem deepSlotsPersist : Obligations.DeepSlotsPersist := by
  intro n m s hlive hpops
  induction m with
  | zero => exact ⟨hlive, rfl⟩
  | succ m ih =>
    obtain ⟨-, hkept⟩ := ih fun k hk => hpops k (Nat.lt_succ_of_lt hk)
    obtain ⟨hlive', hslot⟩ := stepState_getElem? (hpops m (Nat.lt_succ_self m))
    rw [runSteps_succ]
    exact ⟨hlive', hslot.trans hkept⟩

end

end Sys2Proof.Machine

/-!
# What a run cannot depend on

Two runs side by side: a change of the state that every step commutes with commutes with every run (`Function.Commute`).
-/

namespace Sys2Proof.Machine

section

variable {s t : State}

/-- The same state with the unused operand fields of its program made zero (R48). -/
def withCanonicalProg (s : State) : State := { s with prog := s.prog.map canonical }

theorem fetch_withCanonicalProg (s : State) : fetch (withCanonicalProg s) = (fetch s).map canonical :=
  List.getElem?_map

theorem programSize_withCanonicalProg (s : State) : (withCanonicalProg s).programSize = s.programSize :=
  List.length_map canonical

theorem firstFailure_canonical (i : Instr) (s : State) : firstFailure (canonical i) s = firstFailure i s := by
  cases i <;> rfl

theorem completed_canonical (i : Instr) (s : State) : completed (canonical i) s = completed i s := by
  cases i <;> rfl

/-- A step reads the program store only where it fetches, and what it fetches does the same with its unused operand zero. -/
theorem StepsTo.withCanonicalProg (h : StepsTo s t) : StepsTo (withCanonicalProg s) (withCanonicalProg t) := by
  cases h with
  | idle hterm => exact .idle hterm
  | failedFetch hrun hrange => exact .failedFetch hrun (programSize_withCanonicalProg s ▸ hrange)
  | traps i T hrun hfetch hfail =>
    have hfetch' : fetch (Machine.withCanonicalProg s) = some (canonical i) := by simp [fetch_withCanonicalProg, hfetch]
    exact .traps (canonical i) T hrun hfetch' ((firstFailure_canonical i _).trans hfail)
  | completes i hrun hfetch hpass =>
    have hfetch' : fetch (Machine.withCanonicalProg s) = some (canonical i) := by simp [fetch_withCanonicalProg, hfetch]
    have hsame : completed (canonical i) (Machine.withCanonicalProg s) = Machine.withCanonicalProg (completed i s) :=
      completed_canonical i _
    exact hsame ▸ .completes (canonical i) hrun hfetch' ((firstFailure_canonical i _).trans hpass)

theorem stepState_commute_withCanonicalProg : Function.Commute stepState withCanonicalProg :=
  fun s => (stepsTo_stepState s).withCanonicalProg.stepState_eq

/-- Settles O46: making the unused operand fields zero commutes with a step, and so with a run. -/
theorem unusedOperandsIgnored : Obligations.UnusedOperandsIgnored := by
  intro n s
  simp only [runSteps_eq_iterate]
  exact stepState_commute_withCanonicalProg.iterate_left n s

/-- The same state with another event log. -/
def withLog (log : List Event) (s : State) : State := { s with dbg := log }

/-- A step appends to the log events that do not depend on what it held, and reads it nowhere. -/
theorem StepsTo.withLog (h : StepsTo s t) :
    ∃ added, t.dbg = s.dbg ++ added ∧ ∀ log, StepsTo (withLog log s) (withLog (log ++ added) t) := by
  cases h with
  | idle hterm => exact ⟨[], by simp, fun log => by simpa using .idle hterm⟩
  | failedFetch hrun hrange => exact ⟨[.trapReport _ s.stack], rfl, fun log => .failedFetch hrun hrange⟩
  | traps i T hrun hfetch hfail => exact ⟨[.trapReport T s.stack], rfl, fun log => .traps i T hrun hfetch hfail⟩
  | completes i hrun hfetch hpass => exact ⟨emitted i s, rfl, fun log => .completes i hrun hfetch hpass⟩

theorem runSteps_withLog (n : Nat) (s : State) :
    ∃ added, (runSteps n s).dbg = s.dbg ++ added ∧
      ∀ log, runSteps n (withLog log s) = withLog (log ++ added) (runSteps n s) := by
  induction n with
  | zero => exact ⟨[], by simp [runSteps], fun log => by simp [runSteps]⟩
  | succ n ih =>
    obtain ⟨earlier, hdbg, hrun⟩ := ih
    obtain ⟨added, hdbg', hstep⟩ := (stepsTo_stepState (runSteps n s)).withLog
    refine ⟨earlier ++ added, ?_, fun log => ?_⟩
    · rw [runSteps_succ, hdbg', hdbg, List.append_assoc]
    · rw [runSteps_succ, runSteps_succ, hrun, (hstep (log ++ earlier)).stepState_eq, List.append_assoc]

end

/-- Settles O47: no step reads the log, so a run appends the same events to any log (`runSteps_withLog`). -/
theorem eventLogNeverRead : Obligations.EventLogNeverRead := by
  intro n s log
  obtain ⟨added, hdbg, hrun⟩ := runSteps_withLog n s
  exact ⟨added, hdbg, hrun log⟩

/-- Settles O45: the log after a run is the log before with the run's events appended. -/
theorem eventLogOnlyGrows : Obligations.EventLogOnlyGrows := by
  intro n s
  obtain ⟨added, hdbg, -⟩ := runSteps_withLog n s
  exact ⟨added, hdbg.symm⟩

end Sys2Proof.Machine

/-!
# Causes and ends

The obligations of spec/60_exceptions.md §1 and §4 and of spec/40_execution_cycle.md §8, read off the kinds of step.
-/

namespace Sys2Proof.Machine

/-- Settles O39: the instruction's outcome is that of its first failing check, and what it emits on completion is no report. -/
theorem firstFailingCheckDecides : Obligations.FirstFailingCheckDecides := by
  refine fun i s => ⟨fun T => exec_of_failure, fun hpass => ⟨completed i s, exec_of_success hpass, rfl, fun e he => ?_⟩⟩
  exact (List.mem_append.mp he).imp_right fun hnew => (snap_of_mem_emitted hnew).2

/-- Settles O40: a step that ends in a trap was a failed fetch or an instruction whose failing check names a trap of its row. -/
theorem trapsPerInstruction : Obligations.TrapsPerInstruction := by
  intro s t hrun hstep htrap
  cases step_eq_next_iff.mp hstep with
  | idle hterm => exact absurd hterm (not_terminal_of_running hrun)
  | failedFetch _ hrange => exact .inl ⟨hrange, rfl⟩
  | traps i T _ hfetch hfail => exact .inr ⟨i, hfetch, firstFailure_mem_trapsOf hfail⟩
  | completes i _ _ _ => exact absurd hrun.2 htrap

/-- A completed instruction leaves a Running engine terminal only if it is `Halt`. -/
theorem opcode_eq_halt_of_completed_terminal {i : Instr} {s : State} (hrun : s.Running) (hterm : (completed i s).Terminal) :
    i.opcode = .halt := by
  by_contra hi
  have hstill : (completed i s).Running := ⟨(if_neg hi).trans hrun.1, hrun.2⟩
  exact not_terminal_of_running hstill hterm

/-- Settles O48: the three kinds of step a Running engine can take to a terminal state are the three rows of R67. -/
theorem howARunEnds : Obligations.HowARunEnds := by
  intro s t hrun hstep hterm
  cases step_eq_next_iff.mp hstep with
  | idle hterm => exact absurd hterm (not_terminal_of_running hrun)
  | failedFetch _ hrange => exact .inr (.inr ⟨hrange, hrun.1, rfl, rfl⟩)
  | traps i T _ hfetch hfail => exact .inr (.inl ⟨⟨i, hfetch, hfail⟩, hrun.1, ne_ok_of_firstFailure hfail, rfl⟩)
  | completes i _ hfetch _ =>
    obtain ⟨u, rfl⟩ := (opcode_eq_halt_iff i).mp (opcode_eq_halt_of_completed_terminal hrun hterm)
    exact .inl ⟨⟨u, hfetch⟩, rfl, hrun.2, rfl⟩

/-- Settles O41: the five codes are the literals 0 to 4, and no two traps share one (`Trap.code_injective`). -/
theorem trapCodes : Obligations.TrapCodes := by
  refine ⟨rfl, rfl, rfl, rfl, rfl, fun T => ?_, fun _ _ h => Trap.code_injective h⟩
  cases T <;> decide

end Sys2Proof.Machine

/-!
# Dup, JmpIf, Halt, PrintTop and the frames of control and debug

The obligations of spec/41_stack_ops.md §3, spec/43_control.md §2 to §4 and spec/44_debug.md §1 to §3, from the arms' equations.
-/

namespace Sys2Proof.Machine

section

variable {s t : State}

theorem fallThrough_of_keeps (below : List Nat) (h : s.cfg.jmpIfNotTakenKeeps = true) :
    fallThrough below s = .next (advance s) :=
  if_pos h

theorem fallThrough_of_consumes (below : List Nat) (h : s.cfg.jmpIfNotTakenKeeps = false) :
    fallThrough below s = .next (advance (setStack below s)) := by
  simp [fallThrough, h]

end

/-- Settles O8: the three checks of `Dup` one by one, and the push of the slot it finds. -/
theorem dupResult : Obligations.DupResult := by
  refine fun s n => ⟨fun w hslot hroom => ?_, execDup_of_sp_eq_zero n, fun hpos => execDup_of_sp_le (Nat.ne_of_gt hpos),
    fun hn hfull => ?_⟩
  · exact (execDup_of_getElem?_eq_some hslot).trans (pushAdvance_of_room w hroom)
  · have hslot : s.stack[n]? = some (s.stack[n]'hn) := List.getElem?_eq_getElem hn
    exact (execDup_of_getElem?_eq_some hslot).trans (pushAdvance_of_full _ hfull)

/-- Settles O15: the empty stack, a top of 1 and any other top are the three equations of `JmpIf`. -/
theorem jmpIfResult : Obligations.JmpIfResult := by
  refine fun s target hkeeps => ⟨fun below => execJmpIf_of_top_eq_one target, fun below a h ha => ?_, fun h0 => ?_⟩
  · exact (execJmpIf_of_top_ne_one target h ha).trans (fallThrough_of_keeps below hkeeps)
  · exact execJmpIf_of_stack_eq_nil target (sp_eq_zero_iff.mp h0)

/-- Settles O16: in this reading both branches write `below` to the stack, and differ in `ip` alone. -/
theorem jmpIfConsumingReading : Obligations.JmpIfConsumingReading := by
  intro s target below a hconsumes h
  by_cases ha : a = 1
  · rw [if_pos ha]
    exact execJmpIf_of_top_eq_one target (ha ▸ h)
  · rw [if_neg ha]
    exact (execJmpIf_of_top_ne_one target h ha).trans (fallThrough_of_consumes below hconsumes)

/-- Settles O17: the fetched `Halt` leaves a Halted engine, which no further step changes. -/
theorem haltResult : Obligations.HaltResult := by
  refine fun s u => ⟨exec_halt u s, fun hrun hfetch => ?_⟩
  have hstep : step s = .next (advance (setHalted s)) := (step_of_fetch_eq_some hrun hfetch).trans (exec_halt u s)
  exact ⟨_, hstep, ⟨rfl, hrun.2⟩, rfl, runSteps_of_terminal (.inl rfl)⟩

/-- Settles O19: the event carries the stack before the pop; the empty stack underflows. -/
theorem printTopResult : Obligations.PrintTopResult := by
  refine fun s u => ⟨fun below a h => ?_, fun h0 => execPrintTop_of_stack_eq_nil (sp_eq_zero_iff.mp h0)⟩
  rw [← h]
  exact execPrintTop_of_stack_eq_append h

/-- What a completed `JmpIf` leaves: its stack is the one before or lacks the top, and only `ip` is written besides. -/
theorem completed_jmpIf_frame {s : State} {below : List Nat} {a : Nat} (target : Nat) (h : s.stack = below ++ [a]) :
    ∃ st ip, completed (.jmpIf target) s = setIp ip (setStack st s) ∧ (st = s.stack ∨ st = below) := by
  by_cases ha : a = 1
  · exact ⟨below, target, completed_jmpIf_of_one target (ha ▸ h), .inr rfl⟩
  · exact ⟨_, _, completed_jmpIf_of_ne_one target h ha, ite_eq_or_eq _ _ _⟩

/-- Settles O26: `Jmp` and `Halt` never touch the stack; `JmpIf` underflows on the empty one and else has its frame. -/
theorem frameOfControl : Obligations.FrameOfControl := by
  rintro _ s t ⟨u, rfl | rfl | rfl⟩ h
  · obtain rfl := Host.Outcome.next.inj ((exec_jmp u s).symm.trans h)
    exact .inr ⟨.inl rfl, fun _ => rfl, rfl, rfl, rfl, rfl⟩
  · obtain hnil | ⟨below, a, hst⟩ := List.eq_nil_or_concat' s.stack
    · have ht : t = trapEntry .stackUnderflow s :=
        (raise_eq_next_iff _ s t).mp ((execJmpIf_of_stack_eq_nil u hnil).symm.trans h)
      exact .inl ⟨rfl, sp_eq_zero_iff.mpr hnil, ht⟩
    · have hpass : firstFailure (.jmpIf u) s = none := firstFailure_of_stack_eq_append rfl rfl rfl hst
      obtain ⟨st, ip, hcompleted, hstack⟩ := completed_jmpIf_frame u hst
      obtain rfl : t = setIp ip (setStack st s) :=
        Host.Outcome.next.inj (h.symm.trans ((exec_of_success hpass).trans (congrArg _ hcompleted)))
      have hlower : st = s.stack ∨ (Instr.jmpIf u).opcode = .jmpIf ∧ ∃ a, s.stack = st ++ [a] :=
        hstack.imp_right fun hbelow : st = below => ⟨rfl, a, hbelow ▸ hst⟩
      exact .inr ⟨hlower, fun _ => rfl, rfl, rfl, rfl, rfl⟩
  · obtain rfl := Host.Outcome.next.inj ((exec_halt u s).symm.trans h)
    exact .inr ⟨.inl rfl, fun hne => absurd rfl hne, rfl, rfl, rfl, rfl⟩

/-- Settles O27: `DumpStack` is its equation; `PrintTop` underflows on the empty stack and else is its equation. -/
theorem frameOfDebug : Obligations.FrameOfDebug := by
  rintro _ s t ⟨u, rfl | rfl⟩ h
  · obtain rfl := Host.Outcome.next.inj ((exec_dumpStack u s).symm.trans h)
    exact .inr ⟨⟨.dump s.stack, rfl, rfl, rfl⟩, .inl rfl, rfl, rfl, rfl, rfl, rfl⟩
  · obtain hnil | ⟨below, a, hst⟩ := List.eq_nil_or_concat' s.stack
    · have ht : t = trapEntry .stackUnderflow s :=
        (raise_eq_next_iff _ s t).mp ((execPrintTop_of_stack_eq_nil hnil).symm.trans h)
      exact .inl ⟨rfl, sp_eq_zero_iff.mpr hnil, ht⟩
    · obtain rfl := Host.Outcome.next.inj ((execPrintTop_of_stack_eq_append hst).symm.trans h)
      exact .inr ⟨⟨.print s.stack, rfl, rfl, rfl⟩, .inr ⟨rfl, a, hst⟩, rfl, rfl, rfl, rfl, rfl⟩

end Sys2Proof.Machine

/-!
# Arithmetic modulo the Word

The obligations of spec/42_arithmetic.md §2 to §4 and §6: facts of `addResult`, `subResult` and `mulResult` as numbers, carried to the
instructions by `binary_noCheck`.
-/

namespace Sys2Proof.Machine

section

variable {W a b : Nat}

/-- `r` is the Word for the integer `z`: below `2^W` and its least non-negative residue (R80). -/
def IsResidue (W : Nat) (z : Int) (r : Nat) : Prop := IsWord W r ∧ (r : Int) = z % 2 ^ W

theorem addResult_isResidue : IsResidue W ((a : Int) + b) (addResult W a b) :=
  ⟨Nat.mod_lt _ (Nat.two_pow_pos W), by simp [addResult]⟩

theorem mulResult_isResidue : IsResidue W ((a : Int) * b) (mulResult W a b) :=
  ⟨Nat.mod_lt _ (Nat.two_pow_pos W), by simp [mulResult]⟩

/-- The `2^W` that R77 adds keeps the difference a natural number and falls out modulo `2^W`. -/
theorem subResult_isResidue (hb : IsWord W b) : IsResidue W ((a : Int) - b) (subResult W a b) := by
  refine ⟨Nat.mod_lt _ (Nat.two_pow_pos W), ?_⟩
  have hle : b ≤ a + 2 ^ W := hb.le.trans (Nat.le_add_left _ _)
  have hcast : ((a + 2 ^ W - b : Nat) : Int) = (a : Int) - b + 2 ^ W := by
    push_cast [hle]
    ring
  rw [subResult, Int.natCast_mod, hcast]
  simp

theorem subResult_of_le (ha : IsWord W a) (hba : b ≤ a) : subResult W a b = a - b := by
  have hlt : a - b < 2 ^ W := (Nat.sub_le a b).trans_lt ha
  rw [subResult, Nat.sub_add_comm hba, Nat.add_mod_right, Nat.mod_eq_of_lt hlt]

theorem addResult_max_one : addResult W (2 ^ W - 1) 1 = 0 := by
  rw [addResult, Nat.sub_add_cancel (Nat.two_pow_pos W), Nat.mod_self]

theorem subResult_zero_one : subResult W 0 1 = 2 ^ W - 1 := by
  have hlt : 2 ^ W - 1 < 2 ^ W := Nat.sub_one_lt_of_lt (Nat.two_pow_pos W)
  rw [subResult, Nat.zero_add, Nat.mod_eq_of_lt hlt]

/-- `(2^W - 1)^2 = (2^W - 2) * 2^W + 1`. -/
theorem mulResult_max_max (hW : 1 ≤ W) : mulResult W (2 ^ W - 1) (2 ^ W - 1) = 1 := by
  have htwo : 2 ≤ 2 ^ W := Nat.le_self_pow (Nat.ne_of_gt hW) 2
  obtain ⟨m, hm⟩ := Nat.exists_eq_add_of_le htwo
  have hsquare : (2 ^ W - 1) * (2 ^ W - 1) = 1 + m * 2 ^ W := by
    rw [hm, show 2 + m - 1 = m + 1 by omega]
    ring
  rw [mulResult, hsquare, Nat.add_mul_mod_self_right, Nat.mod_eq_of_lt htwo]

theorem subResult_self (a : Nat) : subResult W a a = 0 := by
  rw [subResult, Nat.add_sub_cancel_left, Nat.mod_self]

end

section

variable {s : State} {below : List Nat} {a b : Nat}

theorem exec_add (u : Nat) (h : s.stack = below ++ [a, b]) :
    exec (.add u) s = .next { s with stack := below ++ [addResult s.cfg.wordBits a b], ip := s.ip + 1 } :=
  (binary_noCheck (addResult s.cfg.wordBits) s).1 below a b h

theorem exec_sub (u : Nat) (h : s.stack = below ++ [a, b]) :
    exec (.sub u) s = .next { s with stack := below ++ [subResult s.cfg.wordBits a b], ip := s.ip + 1 } :=
  (binary_noCheck (subResult s.cfg.wordBits) s).1 below a b h

theorem exec_mul (u : Nat) (h : s.stack = below ++ [a, b]) :
    exec (.mul u) s = .next { s with stack := below ++ [mulResult s.cfg.wordBits a b], ip := s.ip + 1 } :=
  (binary_noCheck (mulResult s.cfg.wordBits) s).1 below a b h

end

/-- Settles O20: each result is the residue of the exact integer (`IsResidue`), and a residue below `2^W` is the number itself. -/
theorem arithmeticModuloWord : Obligations.ArithmeticModuloWord := by
  intro s u below a b h ha hb
  obtain ⟨haddWord, haddInt⟩ : IsResidue s.cfg.wordBits ((a : Int) + b) _ := addResult_isResidue
  obtain ⟨hsubWord, hsubInt⟩ : IsResidue s.cfg.wordBits ((a : Int) - b) _ := subResult_isResidue hb
  obtain ⟨hmulWord, hmulInt⟩ : IsResidue s.cfg.wordBits ((a : Int) * b) _ := mulResult_isResidue
  exact ⟨⟨_, exec_add u h, haddWord, haddInt, Nat.mod_eq_of_lt⟩, ⟨_, exec_sub u h, hsubWord, hsubInt, subResult_of_le ha⟩,
    ⟨_, exec_mul u h, hmulWord, hmulInt, Nat.mod_eq_of_lt⟩⟩

/-- Settles O22: each corner is a value of a result function. -/
theorem wrapCorners : Obligations.WrapCorners := by
  intro s u below hW
  refine ⟨fun h => ?_, fun h => ?_, fun h => ?_, fun x _ h => ?_⟩
  · rw [exec_add u h, addResult_max_one]
  · rw [exec_sub u h, subResult_zero_one]
  · rw [exec_mul u h, mulResult_max_max hW]
  · rw [exec_sub u h, subResult_self]

end Sys2Proof.Machine

/-!
# Words and byte streams

The obligations of spec/30_encoding.md §2, §4, §5, §7 and §9. A word is its two fields (`packWord_fields`), and a byte stream is the
opcode byte with the bytes of the operand field (`ofLeBytes_leBytes`).
-/

namespace Sys2Proof

/-- Every number up to `0x0B` is the number of an opcode (R50). -/
theorem exists_opcodeOf_of_le {b : BitVec opcBits} (h : b.toNat ≤ 0x0B) : ∃ o, opcodeOf b = some o := by
  unfold opcodeOf
  generalize b.toNat = n at h
  interval_cases n <;> exact ⟨_, rfl⟩

@[simp] theorem Instr.operand_ofPair (o : Opcode) (v : Nat) : (Instr.ofPair o v).operand = v := by
  cases o <;> rfl

theorem operandField_lt {W : Nat} (w : InstrWord W) : IsWord W (operandField w) :=
  (w.extractLsb' 0 W).isLt

theorem encode_ofPair (W : Nat) (o : Opcode) (v : Nat) : encode W (Instr.ofPair o v) = packWord W o.number v := by
  rw [encode, Instr.opcode_ofPair, Instr.operand_ofPair]

/-- What the decoder answers is well formed, because its operand is read off `W` bits. -/
theorem wellFormed_of_decode_eq_ok {W : Nat} {w : InstrWord W} {i : Instr} (h : decode W w = .ok i) : i.WellFormed W := by
  obtain ⟨o, -, rfl⟩ := (decode_eq_ok_iff W w i).mp h
  rw [Instr.WellFormed, Instr.operand_ofPair]
  exact operandField_lt w

/-- A word with a legal `opc` field is the encoding of the Instruction it decodes to (R51, R54). -/
theorem encode_decode {W : Nat} {w : InstrWord W} (h : (opcField w).toNat ≤ 0x0B) :
    ∃ i : Instr, decode W w = .ok i ∧ i.WellFormed W ∧ i.opcode.number = opcField w ∧ i.operand = operandField w ∧
      encode W i = w := by
  obtain ⟨o, ho⟩ := exists_opcodeOf_of_le h
  have hdecode : decode W w = .ok (Instr.ofPair o (operandField w)) := (decode_eq_ok_iff W w _).mpr ⟨o, ho, rfl⟩
  have hnumber : opcField w = o.number := (opcodeOf_eq_some_iff _ _).mp ho
  refine ⟨_, hdecode, wellFormed_of_decode_eq_ok hdecode, ?_, Instr.operand_ofPair _ _, ?_⟩
  · rw [Instr.opcode_ofPair, hnumber]
  · rw [encode_ofPair, ← hnumber, packWord_fields]

/-- Settles O1: `decode_encode` one way, `encode_decode` the other, and above `0x0B` no opcode has the number. -/
theorem decodeEncodeInverse : Obligations.DecodeEncodeInverse :=
  fun _ => ⟨fun _ => decode_encode, fun _ => encode_decode,
    fun _ h => decode_of_opcodeOf_eq_none (opcodeOf_eq_none_of_lt h)⟩

/-- The two fields of a word lie beside each other without overlap (R46). -/
theorem packWord_toNat {W v : Nat} (o : BitVec opcBits) (h : IsWord W v) :
    (packWord W o v).toNat = o.toNat * 2 ^ W + v := by
  rw [packWord, BitVec.toNat_append, BitVec.toNat_ofNat, Nat.mod_eq_of_lt h, ← Nat.shiftLeft_add_eq_or_of_lt h,
    Nat.shiftLeft_eq]

/-- Settles O2: the layout of `packWord` at the Instruction's number and operand. -/
theorem encodedWordLayout : Obligations.EncodedWordLayout :=
  fun _ i => packWord_toNat i.opcode.number

theorem opcField_encode (W : Nat) (i : Instr) : opcField (encode W i) = i.opcode.number :=
  opcField_packWord W _ _

/-- Settles O3: the `opc` field of an encoding is the opcode's number, and the twelve numbers are literals. -/
theorem opcodeMapRows : Obligations.OpcodeMapRows := by
  intro W v
  simp only [opcField_encode]
  exact ⟨rfl, rfl, rfl, rfl, rfl, rfl, rfl, rfl, rfl, rfl, rfl, rfl⟩

/-- Settles O5: the decoder run on eight literal words. -/
theorem specWordsDecode : Obligations.SpecWordsDecode := by
  unfold Obligations.SpecWordsDecode
  decide

/-! Byte streams (R58). -/

theorem encodeBytes_of_dvd {W : Nat} (h8 : W % 8 = 0) (i : Instr) :
    encodeBytes W i = .ok (i.opcode.number :: leBytes (W / 8) i.operand) :=
  if_pos h8

/-- A stream that begins with an opcode byte and `W/8` operand bytes is read as the word with these two fields. -/
theorem decodeBytes_cons_append {W : Nat} (h8 : W % 8 = 0) (o : Byte) (operand rest : List Byte)
    (hlen : operand.length = W / 8) {i : Instr} (hdecode : decode W (packWord W o (ofLeBytes operand)) = .ok i) :
    decodeBytes W (o :: (operand ++ rest)) = .ok (i, rest) := by
  simp [decodeBytes, h8, ← hlen, hdecode]

theorem ofLeBytes_leBytes_operand {W : Nat} (h8 : W % 8 = 0) {i : Instr} (h : i.WellFormed W) :
    ofLeBytes (leBytes (W / 8) i.operand) = i.operand := by
  apply ofLeBytes_leBytes
  rwa [Nat.mul_div_cancel' (Nat.dvd_of_mod_eq_zero h8)]

theorem decodeBytes_encodeBytes {W : Nat} (h8 : W % 8 = 0) {i : Instr} (h : i.WellFormed W) (rest : List Byte) :
    decodeBytes W (i.opcode.number :: leBytes (W / 8) i.operand ++ rest) = .ok (i, rest) := by
  apply decodeBytes_cons_append h8 _ _ _ (leBytes_length _ _)
  rw [ofLeBytes_leBytes_operand h8 h]
  exact decode_encode h

/-- Settles O6: the stream is the opcode byte and the operand's bytes, which give word and rest back; other widths are refused. -/
theorem byteStreamRoundTrip : Obligations.ByteStreamRoundTrip := by
  refine ⟨fun W i rest h8 hi => ?_, rfl, fun W h8 => ⟨fun i => if_neg h8, fun bytes => if_neg h8⟩⟩
  refine ⟨_, encodeBytes_of_dvd h8 i, ?_, rfl, fun k hk => ?_, decodeBytes_encodeBytes h8 hi rest⟩
  · rw [List.length_cons, leBytes_length, Nat.add_comm]
  · exact leBytes_getElem? _ _ k hk

end Sys2Proof

/-!
# Placing a word

The obligation of the host's `withFetchWord` (log entry 23).
-/

namespace Sys2Proof.Machine

/-- The other entries of the store stay where they are. -/
theorem placeEntry_getElem?_of_ne {j k : Nat} (i : Instr) {p : List Instr} (hk : k < p.length) (hne : k ≠ j) :
    (placeEntry j i p)[k]? = p[k]? := by
  unfold placeEntry
  split
  · exact List.getElem?_set_ne (Ne.symm hne)
  · rw [List.append_assoc, List.getElem?_append_left hk]

theorem withFetchWord_of_decode_eq_ok {s : State} {nbits w : Nat} {i : Instr}
    (h : decode s.cfg.wordBits (wordOfTable s.cfg.wordBits nbits w) = .ok i) :
    s.withFetchWord nbits w = { s with prog := placeEntry s.ip i s.prog, halted := false, trap := .ok } := by
  simp [State.withFetchWord, h]

/-- Settles O33: the placed state is Running and fetches the decoded Instruction. -/
theorem placedWordRuns : Obligations.PlacedWordRuns := by
  intro s nbits w i hdecode
  rw [withFetchWord_of_decode_eq_ok hdecode]
  have hentry : (placeEntry s.ip i s.prog)[s.ip]? = some i := placeEntry_getElem? s.ip i s.prog
  exact ⟨⟨rfl, rfl⟩, hentry, step_of_fetch_eq_some ⟨rfl, rfl⟩ hentry,
    fun _ hk hne => placeEntry_getElem?_of_ne i hk hne, rfl, rfl, rfl⟩

end Sys2Proof.Machine

/-!
# Sessions

The obligations of spec/50_interfaces.md §2 and §6 and of spec/70_reset_and_hazards.md §2. What an append and each action of the
host do is said once; a session's invariant is then carried along its list of actions.
-/

namespace Sys2Proof.Machine

section

variable {s : State} {x y : Session}

theorem act_stepRequest (x : Session) : Session.act .stepRequest x = .next ⟨.stepping, stepState x.block⟩ := by
  simp [Session.act, step_eq_stepState]

theorem act_append_of_stepping (i : Instr) (h : x.phase = .stepping) :
    Session.act (.append i) x = .refused .appendAfterFirstStep := by
  simp [Session.act, h]

theorem act_appendWord_of_stepping (w : Nat) (h : x.phase = .stepping) :
    Session.act (.appendWord w) x = .refused .appendAfterFirstStep := by
  simp [Session.act, h]

/-- What an action that the session takes leaves: a reset block, the state after an append in the loading phase, the state after
a step in the stepping phase, or the session as it was. -/
inductive ActsTo (x : Session) : HostAction → Session → Prop where
  | reset : ActsTo x .reset ⟨.loading, resetPort x.block⟩
  | append (i : Instr) (hphase : x.phase = .loading) : ActsTo x (.append i) ⟨.loading, (append i x.block).2⟩
  | appendWord (w : Nat) (hphase : x.phase = .loading) : ActsTo x (.appendWord w) ⟨.loading, (appendWord w x.block).2⟩
  | stepRequest : ActsTo x .stepRequest ⟨.stepping, stepState x.block⟩
  | readOut : ActsTo x .readOut x

theorem actsTo_of_act {a : HostAction} (h : Session.act a x = .next y) : ActsTo x a y := by
  obtain ⟨phase, block⟩ := x
  cases a with
  | reset => exact Host.Outcome.next.inj h ▸ .reset
  | append i =>
    cases phase with
    | loading => exact Host.Outcome.next.inj h ▸ .append i rfl
    | stepping => cases h
  | appendWord w =>
    cases phase with
    | loading => exact Host.Outcome.next.inj h ▸ .appendWord w rfl
    | stepping => cases h
  | stepRequest => exact Host.Outcome.next.inj ((act_stepRequest _).symm.trans h) ▸ .stepRequest
  | readOut => exact Host.Outcome.next.inj h ▸ .readOut

/-- Settles O54: an action taken in the stepping phase is a reset, or keeps the phase and does not write the store. -/
theorem appendRefusedAfterStep : Obligations.AppendRefusedAfterStep := by
  refine ⟨fun i _ => act_append_of_stepping i, fun w _ => act_appendWord_of_stepping w, fun a x y h => ?_⟩
  cases actsTo_of_act h with
  | reset => exact ⟨nofun, fun _ => rfl, fun _ hne => absurd rfl hne⟩
  | append i hphase => exact ⟨nofun, nofun, fun hstep => absurd (hphase.symm.trans hstep) nofun⟩
  | appendWord w hphase => exact ⟨nofun, nofun, fun hstep => absurd (hphase.symm.trans hstep) nofun⟩
  | stepRequest => exact ⟨fun _ => rfl, nofun, fun _ _ => ⟨rfl, (stepState_prog_cfg x.block).1⟩⟩
  | readOut => exact ⟨nofun, nofun, fun hstep _ => ⟨hstep, rfl⟩⟩

/-! The invariants of a session. -/

/-- Both invariants hold, and the parameters are `c`. -/
def State.Sound (c : Config) (s : State) : Prop := s.Wf ∧ s.ReportsAgree ∧ s.cfg = c

theorem State.Wf.append_entry (h : s.Wf) {i : Instr} (hi : i.WellFormed s.cfg.wordBits)
    (hroom : s.programSize ≠ s.cfg.programCapacity) : ({ s with prog := s.prog ++ [i] } : State).Wf where
  cfg := h.cfg
  stack := h.stack
  progSize := by
    have hlt : s.programSize < s.cfg.programCapacity := Nat.lt_of_le_of_ne h.progSize hroom
    simpa [State.programSize] using hlt
  prog := List.forall_mem_append.mpr ⟨h.prog, List.forall_mem_singleton.mpr hi⟩
  ip := h.ip
  exclusive := h.exclusive
  dbg := h.dbg

theorem append_sound {i : Instr} (hwf : s.Wf) (hreports : s.ReportsAgree) (hi : i.WellFormed s.cfg.wordBits) :
    (append i s).2.Sound s.cfg := by
  by_cases hfull : s.programSize = s.cfg.programCapacity
  · rw [append_of_full i hfull]
    exact ⟨hwf, hreports, rfl⟩
  · rw [append_of_room i hfull]
    exact ⟨hwf.append_entry hi hfull, hreports, rfl⟩

/-- A word that decodes is appended as an Instruction whose operand is a Word; one that does not changes nothing. -/
theorem appendWord_sound (w : Nat) (hwf : s.Wf) (hreports : s.ReportsAgree) : (appendWord w s).2.Sound s.cfg := by
  cases hdecode : decode s.cfg.wordBits (BitVec.ofNat (opcBits + s.cfg.wordBits) w) with
  | error e =>
    rw [appendWord_of_decode_eq_error hdecode]
    exact ⟨hwf, hreports, rfl⟩
  | ok i =>
    rw [appendWord_of_decode_eq_ok hdecode]
    exact append_sound hwf hreports (wellFormed_of_decode_eq_ok hdecode)

theorem resetWith_sound {c : Config} (hc : c.wf) : (State.resetWith c).Sound c :=
  ⟨resetWith_wf hc, resetWith_reportsAgree c, rfl⟩

theorem stepState_sound (hwf : s.Wf) (hreports : s.ReportsAgree) : (stepState s).Sound s.cfg :=
  ⟨(stepsTo_stepState s).wf hwf, (stepsTo_stepState s).reportsAgree hreports, (stepState_prog_cfg s).2⟩

theorem act_sound {a : HostAction} (hwf : x.block.Wf) (hreports : x.block.ReportsAgree)
    (ha : a.WellFormed x.block.cfg.wordBits) (h : Session.act a x = .next y) : y.block.Sound x.block.cfg := by
  cases actsTo_of_act h with
  | reset => exact resetWith_sound hwf.cfg
  | append i _ => exact append_sound hwf hreports ha
  | appendWord w _ => exact appendWord_sound w hwf hreports
  | stepRequest => exact stepState_sound hwf hreports
  | readOut => exact ⟨hwf, hreports, rfl⟩

theorem actAll_cons_of_act {a : HostAction} {rest : List HostAction} (h : Session.act a x = .next y) :
    Session.actAll (a :: rest) x = Session.actAll rest y := by
  simp [Session.actAll, h]

/-- A sequence is taken only if its first action is. -/
theorem exists_act_of_actAll_cons {a : HostAction} {rest : List HostAction} (h : Session.actAll (a :: rest) x = .next y) :
    ∃ z, Session.act a x = .next z ∧ Session.actAll rest z = .next y := by
  cases hact : Session.act a x with
  | next z => exact ⟨z, rfl, actAll_cons_of_act hact ▸ h⟩
  | fault r => simp [Session.actAll, hact] at h
  | refused r => simp [Session.actAll, hact] at h

theorem actAll_sound (actions : List HostAction) (x : Session) (hwf : x.block.Wf) (hreports : x.block.ReportsAgree)
    (ha : ∀ a ∈ actions, a.WellFormed x.block.cfg.wordBits) (h : Session.actAll actions x = .next y) :
    y.block.Sound x.block.cfg := by
  induction actions generalizing x with
  | nil =>
    obtain rfl := Host.Outcome.next.inj h
    exact ⟨hwf, hreports, rfl⟩
  | cons a rest ih =>
    obtain ⟨hfirst, hrest⟩ := List.forall_mem_cons.mp ha
    obtain ⟨z, hact, hlater⟩ := exists_act_of_actAll_cons h
    obtain ⟨hwf', hreports', hcfg⟩ := act_sound hwf hreports hfirst hact
    exact hcfg ▸ ih z hwf' hreports' (hcfg.symm ▸ hrest) hlater

/-- Settles O55: every action keeps the invariants and the parameters (`act_sound`), and so does a list of them. -/
theorem sessionsKeepInvariants : Obligations.SessionsKeepInvariants :=
  ⟨fun _ _ => append_sound, fun w _ => appendWord_sound w, fun _ _ _ => act_sound, fun actions x _ => actAll_sound actions x,
    fun _ => resetWith_sound⟩

/-! The boot sequence (R131). -/

theorem actAll_append_of_next {first second : List HostAction} (h : Session.actAll first x = .next y) :
    Session.actAll (first ++ second) x = Session.actAll second y := by
  induction first generalizing x with
  | nil => exact Host.Outcome.next.inj h ▸ rfl
  | cons a rest ih =>
    obtain ⟨z, hact, hlater⟩ := exists_act_of_actAll_cons h
    exact (actAll_cons_of_act hact).trans (ih hlater)

/-- Appends that fit are all taken and stand in order behind what the store held. -/
theorem actAll_appends (program : List Instr) (s : State) (h : s.programSize + program.length ≤ s.cfg.programCapacity) :
    Session.actAll (program.map .append) ⟨.loading, s⟩ = .next ⟨.loading, { s with prog := s.prog ++ program }⟩ := by
  induction program generalizing s with
  | nil => simp [Session.actAll]
  | cons i rest ih =>
    rw [List.length_cons] at h
    have hroom : s.programSize ≠ s.cfg.programCapacity := by omega
    have hact : Session.act (.append i) ⟨.loading, s⟩ = .next ⟨.loading, { s with prog := s.prog ++ [i] }⟩ := by
      simp [Session.act, append_of_room i hroom]
    have hfits : (s.prog ++ [i]).length + rest.length ≤ s.cfg.programCapacity := by
      have hlen : (s.prog ++ [i]).length = s.programSize + 1 := List.length_append
      omega
    rw [List.map_cons, actAll_cons_of_act hact, ih { s with prog := s.prog ++ [i] } hfits]
    simp

theorem actAll_stepRequests (n : Nat) (x : Session) :
    ∃ y, Session.actAll (List.replicate n .stepRequest) x = .next y ∧ y.block = runSteps n x.block := by
  induction n generalizing x with
  | zero => exact ⟨x, rfl, rfl⟩
  | succ n ih =>
    obtain ⟨y, hy, hblock⟩ := ih ⟨.stepping, stepState x.block⟩
    exact ⟨y, (actAll_cons_of_act (act_stepRequest x)).trans hy, hblock⟩

end

/-- Settles O56: the reset empties the store, the appends fill it with the program, and each step request is one step. -/
theorem bootSequenceRuns : Obligations.BootSequenceRuns := by
  rintro c program n x rfl hfits
  have hload : Session.actAll (program.map .append) ⟨.loading, State.resetWith x.block.cfg⟩ =
      .next ⟨.loading, { State.resetWith x.block.cfg with prog := program }⟩ :=
    actAll_appends program _ ((Nat.zero_add _).trans_le hfits)
  obtain ⟨y, hsteps, hblock⟩ := actAll_stepRequests n ⟨.loading, { State.resetWith x.block.cfg with prog := program }⟩
  have hreset : Session.act .reset x = .next ⟨.loading, State.resetWith x.block.cfg⟩ := rfl
  exact ⟨y, (actAll_cons_of_act hreset).trans ((actAll_append_of_next hload).trans hsteps), hblock⟩

end Sys2Proof.Machine
